-- ==== Sys2Proof/Word.lean ====
section
/-! DEFINITION. The two word types of the block's ports (spec/10_state.md R11, R12). Bit 0 is the least significant
bit of every vector (spec/20_memory.md R21). -/

namespace Sys2Proof

/-- The 64-bit word: the field `value` of a request, and the result port RES (R11, R12). -/
abbrev Word := BitVec 64

/-- The 69-bit request word REQ (R11, spec/30_encoding.md R30). -/
abbrev Request := BitVec 69

end Sys2Proof
end

