-- ==== Sys2Proof/Syntax.lean ====
section
/-! DEFINITION. The syntax: what selects an operation (spec/30_encoding.md R31), the 16 operations of
spec/opcode_table.json with their operand and diagnostics flag (R34), and the host's program notation (R37). -/

namespace Sys2Proof

/-- Direction of a conversion, the request bit DIR (R31). -/
inductive Direction where
  | intToFloat
  | floatToInt
  deriving DecidableEq, Repr

/-- Integer signedness `sg`, the request bit SGN (R31): unsigned binary or signed two's complement. -/
inductive Signedness where
  | unsigned
  | signed
  deriving DecidableEq, Repr

/-- The two floating-point formats (spec/40_repr_pack_unpack.md R40), the request bit FF (R31). -/
inductive FloatFormat where
  | f32
  | f64
  deriving DecidableEq, Repr

/-- The 16 operations, one constructor per row of spec/opcode_table.json (R34). Each carries the whole of its
request besides the operation code: the flag `diag` and the field `value`, of which an operation with a 32-bit
operand reads the low half only (R32). -/
inductive Instr where
  | i2fU32F32 (diag : Bool) (value : Word)
  | i2fU32F64 (diag : Bool) (value : Word)
  | i2fU64F32 (diag : Bool) (value : Word)
  | i2fU64F64 (diag : Bool) (value : Word)
  | i2fS32F32 (diag : Bool) (value : Word)
  | i2fS32F64 (diag : Bool) (value : Word)
  | i2fS64F32 (diag : Bool) (value : Word)
  | i2fS64F64 (diag : Bool) (value : Word)
  | f2iF32U32 (diag : Bool) (value : Word)
  | f2iF64U32 (diag : Bool) (value : Word)
  | f2iF32U64 (diag : Bool) (value : Word)
  | f2iF64U64 (diag : Bool) (value : Word)
  | f2iF32S32 (diag : Bool) (value : Word)
  | f2iF64S32 (diag : Bool) (value : Word)
  | f2iF32S64 (diag : Bool) (value : Word)
  | f2iF64S64 (diag : Bool) (value : Word)
  deriving DecidableEq, Repr

/-- The source of a line of a host program (R37): a literal, or the value `vJ` of an earlier line, counted from 0. -/
inductive Source where
  | lit (v : Word)
  | val (j : Nat)
  deriving DecidableEq, Repr

/-- One line `vK = <mnemonic>[.D] <src>` of a host program (R37). The value it names is held by the host. -/
structure Line where
  op : BitVec 4
  diag : Bool
  src : Source
  deriving DecidableEq, Repr

end Sys2Proof
end

