-- ==== Sys2Proof/Machine/Format.lean ====
section
/-! DEFINITION. The constants of the two floating-point formats (spec/40_repr_pack_unpack.md R40 to R42,
spec/00_scope.md R5), and the destination integers' extremes (R53). -/

namespace Sys2Proof

/-- `E(F)`, the exponent field's width (R40). -/
abbrev FloatFormat.expBits : FloatFormat → Nat
  | .f32 => 8
  | .f64 => 11

/-- `M(F)`, the significand field's width (R40). -/
abbrev FloatFormat.sigBits : FloatFormat → Nat
  | .f32 => 23
  | .f64 => 52

/-- `TOTAL(F)`: sign, exponent and significand, 1 + E + M bits (R40). -/
abbrev FloatFormat.total (F : FloatFormat) : Nat := 1 + F.expBits + F.sigBits

/-- `BIAS(F) = 2^(E-1) - 1` (R41). -/
def FloatFormat.bias (F : FloatFormat) : Nat := 2 ^ (F.expBits - 1) - 1

/-- `EMAX(F) = 2^E - 1`, reserved for infinity and NaN (R41). -/
def FloatFormat.emax (F : FloatFormat) : Nat := 2 ^ F.expBits - 1

/-- `GUARD`, the number of guard bits below the kept significand (R5). -/
def guardBits : Nat := 3

/-- `WORKW(F) = M + 4`, the work register's width: the leading 1, M bits, 3 guard bits (R5,
spec/42_normalize_round.md R83). -/
def FloatFormat.workW (F : FloatFormat) : Nat := F.sigBits + 1 + guardBits

/-- `SIGN_MASK` (R42). -/
def FloatFormat.signMask (F : FloatFormat) : BitVec F.total := BitVec.ofNat _ (2 ^ (F.total - 1))

/-- `EXP_MASK` (R42). -/
def FloatFormat.expMask (F : FloatFormat) : BitVec F.total := BitVec.ofNat _ (F.emax * 2 ^ F.sigBits)

/-- `SIG_MASK` (R42). -/
def FloatFormat.sigMask (F : FloatFormat) : BitVec F.total := BitVec.ofNat _ (2 ^ F.sigBits - 1)

/-- `IMPLICIT_MASK` (R42). -/
def FloatFormat.implicitMask (F : FloatFormat) : BitVec F.total := BitVec.ofNat _ (2 ^ F.sigBits)

/-- `IMIN(W, sg)` (R53). -/
def imin (W : Nat) : Signedness → Int
  | .unsigned => 0
  | .signed => -(2 ^ (W - 1) : Int)

/-- `IMAX(W, sg)` (R53). -/
def imax (W : Nat) : Signedness → Int
  | .unsigned => 2 ^ W - 1
  | .signed => 2 ^ (W - 1) - 1

end Sys2Proof
end

