-- ==== Sys2Proof/Decode.lean ====
section
/-! DEFINITION. The request word, its decoder and encoder (spec/30_encoding.md R30 to R36). A decoder is total on any
69 bits (R35); a number that is no 69-bit word is rejected by name (log 12). -/

namespace Sys2Proof

/-- REQ[68], the flag `diag` (R30). -/
def reqDiag (w : Request) : Bool := w.getLsbD 68

/-- REQ[67:64], the operation code `op` (R30). -/
def reqOp (w : Request) : BitVec 4 := w.extractLsb' 64 4

/-- REQ[63:0], the operand field `value` (R30). -/
def reqValue (w : Request) : Word := w.extractLsb' 0 64

/-- The request word of a flag, an operation code and an operand field (R30). -/
def mkRequest (diag : Bool) (op : BitVec 4) (value : Word) : Request := BitVec.ofBool diag ++ op ++ value

/-! ## The subfields of `op` (R31) -/

/-- DIR = op[3] (R31). -/
def opDir (op : BitVec 4) : Direction := if op.getLsbD 3 then .floatToInt else .intToFloat

/-- SGN = op[2] (R31). -/
def opSgn (op : BitVec 4) : Signedness := if op.getLsbD 2 then .signed else .unsigned

/-- W, from IW = op[1] (R31). -/
def opIntWidth (op : BitVec 4) : Nat := if op.getLsbD 1 then 64 else 32

/-- F, from FF = op[0] (R31). -/
def opFormat (op : BitVec 4) : FloatFormat := if op.getLsbD 0 then .f64 else .f32

/-- The source width SW of an operation (R31). -/
def srcWidth (op : BitVec 4) : Nat :=
  match opDir op with
  | .intToFloat => opIntWidth op
  | .floatToInt => (opFormat op).total

/-- The destination width DW of an operation (R31). -/
def dstWidth (op : BitVec 4) : Nat :=
  match opDir op with
  | .intToFloat => (opFormat op).total
  | .floatToInt => opIntWidth op

/-! ## Decoder -/

/-- The operation a request word selects: the rows of R34, read on the bits DIR, SGN, IW, FF. -/
def decode (w : Request) : Instr :=
  let d := reqDiag w
  let v := reqValue w
  let op := reqOp w
  match op.getLsbD 3, op.getLsbD 2, op.getLsbD 1, op.getLsbD 0 with
  | false, false, false, false => .i2fU32F32 d v
  | false, false, false, true => .i2fU32F64 d v
  | false, false, true, false => .i2fU64F32 d v
  | false, false, true, true => .i2fU64F64 d v
  | false, true, false, false => .i2fS32F32 d v
  | false, true, false, true => .i2fS32F64 d v
  | false, true, true, false => .i2fS64F32 d v
  | false, true, true, true => .i2fS64F64 d v
  | true, false, false, false => .f2iF32U32 d v
  | true, false, false, true => .f2iF64U32 d v
  | true, false, true, false => .f2iF32U64 d v
  | true, false, true, true => .f2iF64U64 d v
  | true, true, false, false => .f2iF32S32 d v
  | true, true, false, true => .f2iF64S32 d v
  | true, true, true, false => .f2iF32S64 d v
  | true, true, true, true => .f2iF64S64 d v

/-- Why a number is not decoded. No 69-bit request is ever rejected (R35). -/
inductive DecodeError where
  /-- The number needs more than the 69 bits of a request word (R30). DESIGN CHOICE, safe; log 12. -/
  | widerThanRequest
  deriving DecidableEq, Repr

/-- Decoding of any number: the request word it is, or a rejection by name. -/
def decodeNat (w : Nat) : Except DecodeError Instr :=
  if w < 2 ^ 69 then .ok (decode (BitVec.ofNat 69 w)) else .error .widerThanRequest

/-- The instruction the decoder reads from an opcode-table word of `nbits` bits, the bits above them 0. -/
def decodeTableWord (nbits w : Nat) : Option Instr :=
  match decodeNat (w % 2 ^ nbits) with
  | .ok i => some i
  | .error _ => none

/-! ## Encoder -/

/-- The operation code of an instruction: the first column of R34's table. -/
def Instr.opcode : Instr → BitVec 4
  | .i2fU32F32 _ _ => 0x0#4
  | .i2fU32F64 _ _ => 0x1#4
  | .i2fU64F32 _ _ => 0x2#4
  | .i2fU64F64 _ _ => 0x3#4
  | .i2fS32F32 _ _ => 0x4#4
  | .i2fS32F64 _ _ => 0x5#4
  | .i2fS64F32 _ _ => 0x6#4
  | .i2fS64F64 _ _ => 0x7#4
  | .f2iF32U32 _ _ => 0x8#4
  | .f2iF64U32 _ _ => 0x9#4
  | .f2iF32U64 _ _ => 0xA#4
  | .f2iF64U64 _ _ => 0xB#4
  | .f2iF32S32 _ _ => 0xC#4
  | .f2iF64S32 _ _ => 0xD#4
  | .f2iF32S64 _ _ => 0xE#4
  | .f2iF64S64 _ _ => 0xF#4

/-- The flag `diag` an instruction carries. -/
def Instr.diag : Instr → Bool
  | .i2fU32F32 d _ | .i2fU32F64 d _ | .i2fU64F32 d _ | .i2fU64F64 d _
  | .i2fS32F32 d _ | .i2fS32F64 d _ | .i2fS64F32 d _ | .i2fS64F64 d _
  | .f2iF32U32 d _ | .f2iF64U32 d _ | .f2iF32U64 d _ | .f2iF64U64 d _
  | .f2iF32S32 d _ | .f2iF64S32 d _ | .f2iF32S64 d _ | .f2iF64S64 d _ => d

/-- The field `value` an instruction carries. -/
def Instr.value : Instr → Word
  | .i2fU32F32 _ v | .i2fU32F64 _ v | .i2fU64F32 _ v | .i2fU64F64 _ v
  | .i2fS32F32 _ v | .i2fS32F64 _ v | .i2fS64F32 _ v | .i2fS64F64 _ v
  | .f2iF32U32 _ v | .f2iF64U32 _ v | .f2iF32U64 _ v | .f2iF64U64 _ v
  | .f2iF32S32 _ v | .f2iF64S32 _ v | .f2iF32S64 _ v | .f2iF64S64 _ v => v

/-- The request word of an instruction (R30, R34). -/
def encode (i : Instr) : Request := mkRequest i.diag i.opcode i.value

/-! ## Mnemonics and the assembler's request (R36, spec/92_eei_decisions.md D4) -/

/-- The integer type's part of a mnemonic. -/
def intTypeName (op : BitVec 4) : String :=
  match opSgn op, op.getLsbD 1 with
  | .unsigned, false => "U32"
  | .unsigned, true => "U64"
  | .signed, false => "S32"
  | .signed, true => "S64"

/-- The float format's part of a mnemonic. -/
def floatTypeName (op : BitVec 4) : String :=
  match opFormat op with
  | .f32 => "F32"
  | .f64 => "F64"

/-- The mnemonic of an operation code: source type first, destination type last (R34, D4). -/
def mnemonic (op : BitVec 4) : String :=
  match opDir op with
  | .intToFloat => "I2F." ++ intTypeName op ++ "." ++ floatTypeName op
  | .floatToInt => "F2I." ++ floatTypeName op ++ "." ++ intTypeName op

/-- The request of `<mnemonic>[.D] <operand>`: `.D` sets `diag`, the operand has the source width, and the bits of
`value` above it are 0 (R36). -/
def assemble (op : BitVec 4) (dSuffix : Bool) (operand : BitVec (srcWidth op)) : Request :=
  mkRequest dSuffix op (operand.setWidth 64)

end Sys2Proof
end

