-- ==== Sys2Proof/Config.lean ====
section
/-! DEFINITION. What an implementation of the block fixes (ROUND_RULE, spec/00_scope.md R5), the layout of the
diagnostics port, and the free values the spec leaves unspecified (spec/93_implementation_defined.md U5).
NUM_INSTANCES, the other open parameter, is the length of a System (Machine/HostSide.lean, log 5). -/

namespace Sys2Proof

/-- The parameter ROUND_RULE (spec/42_normalize_round.md R86, spec/92_eei_decisions.md D9). -/
inductive RoundRule where
  /-- `HALF_DOWN_G3`, the default: round up when the 3 guard bits exceed 100b. -/
  | halfDownG3
  /-- `LITERAL_LOW4`: round up when the low 4 bits of the work register exceed 1000b. -/
  | literalLow4
  deriving DecidableEq, Repr

/-- The block's build-time parameters. No operation reads or writes them as state; the rounding policy
"cannot be changed at run time" (spec/10_state.md R18). -/
structure Config where
  roundRule : RoundRule
  deriving DecidableEq, Repr

/-- The parameters at their defaults (R5, R86). -/
def Config.default : Config := { roundRule := .halfDownG3 }

/-- The fields of port DBG other than `valid`, all of those spec/60_exceptions.md R128 lists for the two directions,
under the names the conversion rules give them. The numbers are held exactly (log 14). -/
structure DbgFields where
  isZero : Bool
  s : Bool
  m : Nat
  n : Nat
  e : Nat
  shiftLeft : Bool
  shiftAmt : Nat
  sticky : Bool
  w : Nat
  up : Bool
  carry : Bool
  eFinal : Nat
  frac : Nat
  sig : Nat
  belowOne : Bool
  u : Nat
  saturated : Bool
  mag : Nat
  clamped : Bool
  deriving DecidableEq, Repr, Inhabited

/-- Free values for the DBG fields the spec leaves unspecified (spec/10_state.md R13, R128, 93 U5: "any value").
Nothing can evaluate it: number `k` is a record about which nothing is known. Log 7: no value of a record can be proved,
but the record of number `k` is one and the same wherever number `k` is used. -/
opaque Config.freeDbg : Nat → DbgFields

end Sys2Proof
end

