-- ==== Sys2Proof/Machine/Repr.lean ====
section
/-! DEFINITION. The floating-point representation, pack and unpack, and the integer view
(spec/40_repr_pack_unpack.md R43 to R53). -/

namespace Sys2Proof.Machine

/-- The three fields of a floating value (R43), each of its own width, so that the precondition of `fromParts`
("callers must guarantee biasedExponent and significand fit their field widths", R44) is carried by the type. -/
structure FloatParts (F : FloatFormat) where
  sign : Bool
  exp : BitVec F.expBits
  frac : BitVec F.sigBits
  deriving DecidableEq, Repr

/-- `fromParts` (R44): the vector `{s, e, frac}`. -/
def fromParts (F : FloatFormat) (p : FloatParts F) : BitVec F.total :=
  BitVec.ofBool p.sign ++ p.exp ++ p.frac

/-- `bitsOf` (R45): the raw pattern as an unsigned integer. -/
def bitsOf (F : FloatFormat) (b : BitVec F.total) : Nat := b.toNat

/-- `unpack` (R46): sign, biased exponent and significand field; total on every pattern. -/
def unpack (F : FloatFormat) (b : BitVec F.total) : FloatParts F where
  sign := b.getLsbD (F.total - 1)
  exp := b.extractLsb' F.sigBits F.expBits
  frac := b.extractLsb' 0 F.sigBits

/-- `sigWithImplicit` (R47): the significand with the implicit bit forced set. -/
def sigWithImplicit (F : FloatFormat) (frac : BitVec F.sigBits) : Nat := 2 ^ F.sigBits + frac.toNat

/-- Signed infinity, `fromParts(F, s, EMAX, 0)` (R48, spec/42_normalize_round.md R82). -/
def infinity (F : FloatFormat) (s : Bool) : BitVec F.total :=
  fromParts F { sign := s, exp := BitVec.allOnes _, frac := 0 }

/-- `clz_W` (R50) on a natural below 2^W. At 0, where it is never applied, it takes the value W the rule allows (log 9). -/
def clz (W v : Nat) : Nat := if v = 0 then W else W - 1 - Nat.log2 v

/-- `signMag` (R51): the sign and the exact unsigned magnitude; for a negative operand (2^W - x) mod 2^W. -/
def signMag (W : Nat) (sg : Signedness) (x : BitVec W) : Bool × Nat :=
  match sg with
  | .unsigned => (false, x.toNat)
  | .signed => if x.getLsbD (W - 1) then (true, (2 ^ W - x.toNat) % 2 ^ W) else (false, x.toNat)

/-- `payloadLen` (R52): the position of the most significant set bit, 1-based. -/
def payloadLen (W m : Nat) : Nat := W - clz W m

/-- The integer a W-bit vector stands for (spec/44_other_instruction_classes.md R55 (a)). -/
def intValue {W : Nat} (sg : Signedness) (x : BitVec W) : Int :=
  match sg with
  | .unsigned => x.toNat
  | .signed => x.toInt

/-- `clamp(z, lo, hi)` (spec/00_scope.md R6). -/
def clamp (z lo hi : Int) : Int := if z < lo then lo else if hi < z then hi else z

/-- `to_bits_W(z)`, the vector z mod 2^W (R6). -/
def toBits (W : Nat) (z : Int) : BitVec W := BitVec.ofInt W z

end Sys2Proof.Machine
end

