-- ==== Sys2Proof/Machine/Flags.lean ====
section
/-! DEFINITION. The one-bit conditions a conversion computes. The block has no status flag (spec/10_state.md R17): none
of these is stored, and software sees them only through DBG (spec/60_exceptions.md R128). -/

namespace Sys2Proof.Machine

/-- ROUND_RULE(w): whether the engine rounds up, on the work register `w` (spec/42_normalize_round.md R86). -/
def roundUp : RoundRule → Nat → Bool
  | .halfDownG3, w => 4 < w % 8
  | .literalLow4, w => 8 < w % 16

/-- The sticky bit of a right shift by `k`: a bit shifted out was 1 (R84). At k = 0 it is 0. -/
def stickyOut (m k : Nat) : Bool := m % 2 ^ k ≠ 0

/-- The carry out of the kept significand (R88). -/
def carryOut (F : FloatFormat) (kept : Nat) : Bool := kept = 2 ^ (F.sigBits + 1)

/-- `below_one`: the operand's magnitude is less than 1 (spec/43_fp_to_int.md R102). -/
def belowOne (F : FloatFormat) (e : Nat) : Bool := e < F.bias

/-- `saturated`: the unbiased exponent alone puts the magnitude out of the destination's width (R104). -/
def saturated (W u : Nat) : Bool := W ≤ u

/-- `clamped`: the range clamp changes the signed value (R106). -/
def clampChanges (W : Nat) (sg : Signedness) (z : Int) : Bool := clamp z (imin W sg) (imax W sg) ≠ z

end Sys2Proof.Machine
end

