-- ==== Sys2Proof/Machine/Operands.lean ====
section
/-! DEFINITION. Operand and result assembly on the 64-bit fields (spec/30_encoding.md R32, R33). -/

namespace Sys2Proof.Machine

/-- A 32-bit operand is value[31:0]; value[63:32] is ignored (R32). -/
def operand32 (value : Word) : BitVec 32 := value.extractLsb' 0 32

/-- A 64-bit operand is the whole of `value` (R32). -/
def operand64 (value : Word) : BitVec 64 := value

/-- The result on RES: the low bits carry it, the bits above are 0, for a negative 32-bit integer too (R33). -/
def resultWord {w : Nat} (r : BitVec w) : Word := r.setWidth 64

end Sys2Proof.Machine
end

