-- ==== Sys2Proof/Machine/State.lean ====
section
/-! DEFINITION. The machine's state: the three ports of the block (spec/10_state.md R11 to R13) and its build
parameter. The block itself stores nothing (R10, R15 to R19): no register, program counter, flag, memory, mode or
exception state exists to be held. -/

namespace Sys2Proof.Machine

/-- Why the machine stops with a fault: for no reason at all. The block raises no exception under any request
(spec/60_exceptions.md R120), takes no interrupt (R122) and has no trap (R123), so no constructor exists. Log 13. -/
inductive Fault where
  deriving DecidableEq, Repr

/-- Why a request has no meaning in the model. -/
inductive Refusal where
  /-- An operation not modelled yet. Raised by an arm of `exec` alone; safe. All 16 operations are modelled, so no
  arm raises it. -/
  | notModelled (mnemonic : String)
  deriving DecidableEq, Repr

/-- Port DBG (R13): `valid` equals REQ.diag; the other fields carry the operation's intermediates when it is 1. -/
structure Dbg where
  valid : Bool
  fields : DbgFields
  deriving DecidableEq, Repr

/-- What the rules put on DBG for one operation, field by field (R128): `some x` where R128 names a value, `none` where
the field is left unspecified, that is where an early exit makes it meaningless or the other direction owns it (log 8).
A value of this type is a wire bundle of one operation, never a part of State. -/
structure DbgTrace where
  isZero : Option Bool := none
  s : Option Bool := none
  m : Option Nat := none
  n : Option Nat := none
  e : Option Nat := none
  shiftLeft : Option Bool := none
  shiftAmt : Option Nat := none
  sticky : Option Bool := none
  w : Option Nat := none
  up : Option Bool := none
  carry : Option Bool := none
  eFinal : Option Nat := none
  frac : Option Nat := none
  sig : Option Nat := none
  belowOne : Option Bool := none
  u : Option Nat := none
  saturated : Option Bool := none
  mag : Option Nat := none
  clamped : Option Bool := none
  deriving DecidableEq, Repr

/-- The ports, as they stand after the last step, and the build parameter. -/
structure State where
  /-- Port REQ, driven by the host (R11, R147). No operation writes it. -/
  req : Request
  /-- Port RES as sampled at the last step (R12, R16: "RES <- CONVERT(REQ)"). DESIGN CHOICE, log 6: the port itself
  is `State.resPort`, a function of `req` at every instant. -/
  res : Word
  /-- Port DBG as sampled at the last step (R13). -/
  dbg : Dbg
  /-- The build-time parameters (spec/00_scope.md R5); no operation writes them. DESIGN CHOICE, log 4. -/
  config : Config
  /-- The model's own: the number of the next free value for unspecified DBG fields. DESIGN CHOICE, log 7. -/
  freeCount : Nat
  deriving DecidableEq, Repr

/-- After reset. The block has no reset input and nothing to initialise (spec/70_reset_and_hazards.md R140); REQ is
whatever the host drives, taken as 0 (DESIGN CHOICE, log 1), and RES and DBG.valid are what the rules give for that
request (spec/10_state.md section 5). ROUND_RULE is at its default (R5). -/
def State.reset : State where
  req := 0
  res := 0
  dbg := { valid := false, fields := Config.freeDbg 0 }
  config := Config.default
  freeCount := 1

end Sys2Proof.Machine
end

