-- ==== Sys2Proof/Machine/Ops.lean ====
section
/-! DEFINITION. The named operations on the ports. The block has no memory and no registers to operate on
(spec/20_memory.md R20, spec/10_state.md R15), and raises no exception (spec/60_exceptions.md R120, R123): there is no
exception entry and no return from one to define here. -/

namespace Sys2Proof.Machine

/-- The DBG fields for one operation: what the rules name, and a free value in every field they leave open
(spec/60_exceptions.md R128). -/
def DbgTrace.overlay (t : DbgTrace) (free : DbgFields) : DbgFields where
  isZero := t.isZero.getD free.isZero
  s := t.s.getD free.s
  m := t.m.getD free.m
  n := t.n.getD free.n
  e := t.e.getD free.e
  shiftLeft := t.shiftLeft.getD free.shiftLeft
  shiftAmt := t.shiftAmt.getD free.shiftAmt
  sticky := t.sticky.getD free.sticky
  w := t.w.getD free.w
  up := t.up.getD free.up
  carry := t.carry.getD free.carry
  eFinal := t.eFinal.getD free.eFinal
  frac := t.frac.getD free.frac
  sig := t.sig.getD free.sig
  belowOne := t.belowOne.getD free.belowOne
  u := t.u.getD free.u
  saturated := t.saturated.getD free.saturated
  mag := t.mag.getD free.mag
  clamped := t.clamped.getD free.clamped

/-- Port DBG for a request (spec/10_state.md R13): `valid` = REQ.diag; when it is 0 every other field is unspecified. -/
def dbgPort (diag : Bool) (t : DbgTrace) (free : DbgFields) : Dbg where
  valid := diag
  fields := if diag then t.overlay free else free

/-- One evaluation drives the output ports: `RES <- r`, and DBG (R12, R13, R16). Nothing else of the block changes,
since nothing else exists (R10); the model's own counter moves on. DESIGN CHOICE, log 7: the free record is chosen by
that counter alone, so two blocks, or two requests from one state, whose counters are equal get the same record, where
the spec lets their unspecified fields differ; a claim that such fields are equal would rest on this choice. -/
def State.drive (s : State) (diag : Bool) (r : Word) (t : DbgTrace) : State :=
  { s with
    res := r
    dbg := dbgPort diag t (Config.freeDbg s.freeCount)
    freeCount := s.freeCount + 1 }

/-- The host presents a request: it drives REQ (spec/70_reset_and_hazards.md R147). -/
def State.present (s : State) (r : Request) : State := { s with req := r }

end Sys2Proof.Machine
end

