-- ==== Sys2Proof/Machine/FpToInt.lean ====
section
/-! DEFINITION. Floating point to integer: the generic conversion (spec/43_fp_to_int.md R100 to R108), what it shows on
DBG (spec/60_exceptions.md R128), and the eight operations (R109 to R116). -/

namespace Sys2Proof.Machine

/-- `u = e - BIAS` (R103), formed only after the test e >= BIAS. -/
def unbiasedExp (F : FloatFormat) (e : Nat) : Nat := e - F.bias

/-- The shift is to the left when u >= M (R105). -/
def shiftsLeft (F : FloatFormat) (u : Nat) : Bool := F.sigBits ≤ u

/-- The amount of the shift: u - M to the left, M - u to the right (R105). -/
def shiftAmount (F : FloatFormat) (u : Nat) : Nat := if shiftsLeft F u then u - F.sigBits else F.sigBits - u

/-- The shifted magnitude, truncated (R105); nothing is added to it (R107). -/
def magnitude (F : FloatFormat) (u sig : Nat) : Nat :=
  if shiftsLeft F u then sig <<< shiftAmount F u else sig >>> shiftAmount F u

/-- The signed value `z = ±mag` (R106). -/
def signedMag (s : Bool) (mag : Nat) : Int := if s then -(mag : Int) else mag

/-- The destination's extreme by sign (R104). -/
def extremeOf (W : Nat) (sg : Signedness) (s : Bool) : Int := if s then imin W sg else imax W sg

/-- F2I(F, W, sg, b) (R100), the tests in the order of spec/60_exceptions.md R121. -/
def f2i (F : FloatFormat) (W : Nat) (sg : Signedness) (b : BitVec F.total) : BitVec W :=
  let p := unpack F b
  let e := p.exp.toNat
  if belowOne F e then toBits W 0
  else
    let u := unbiasedExp F e
    if saturated W u then toBits W (extremeOf W sg p.sign)
    else
      let z := signedMag p.sign (magnitude F u (sigWithImplicit F p.frac))
      toBits W (clamp z (imin W sg) (imax W sg))

/-- DBG of a float to integer operation (R128): after an early exit the later fields are meaningless (log 8). -/
def f2iTrace (F : FloatFormat) (W : Nat) (sg : Signedness) (b : BitVec F.total) : DbgTrace :=
  let p := unpack F b
  let e := p.exp.toNat
  let sig := sigWithImplicit F p.frac
  let decoded : DbgTrace := { s := some p.sign, e := some e, sig := some sig, belowOne := some (belowOne F e) }
  if belowOne F e then decoded
  else
    let u := unbiasedExp F e
    let tested : DbgTrace := { decoded with u := some u, saturated := some (saturated W u) }
    if saturated W u then tested
    else
      let mag := magnitude F u sig
      { tested with
        shiftLeft := some (shiftsLeft F u), shiftAmt := some (shiftAmount F u), mag := some mag
        clamped := some (clampChanges W sg (signedMag p.sign mag)) }

/-- The shared body of the eight operations: convert, drive RES (R33) and DBG. No fault, no flag (R100). -/
def runF2I (F : FloatFormat) (W : Nat) (sg : Signedness) (b : BitVec F.total) (diag : Bool) (s : State) :
    Host.Outcome State Fault Refusal :=
  .next (s.drive diag (resultWord (f2i F W sg b)) (f2iTrace F W sg b))

/-- F2I.F32.U32 (R109). -/
def execF2iF32U32 (diag : Bool) (value : Word) (s : State) : Host.Outcome State Fault Refusal :=
  runF2I .f32 32 .unsigned (operand32 value) diag s

/-- F2I.F64.U32 (R110). -/
def execF2iF64U32 (diag : Bool) (value : Word) (s : State) : Host.Outcome State Fault Refusal :=
  runF2I .f64 32 .unsigned (operand64 value) diag s

/-- F2I.F32.U64 (R111). -/
def execF2iF32U64 (diag : Bool) (value : Word) (s : State) : Host.Outcome State Fault Refusal :=
  runF2I .f32 64 .unsigned (operand32 value) diag s

/-- F2I.F64.U64 (R112). -/
def execF2iF64U64 (diag : Bool) (value : Word) (s : State) : Host.Outcome State Fault Refusal :=
  runF2I .f64 64 .unsigned (operand64 value) diag s

/-- F2I.F32.S32 (R113). -/
def execF2iF32S32 (diag : Bool) (value : Word) (s : State) : Host.Outcome State Fault Refusal :=
  runF2I .f32 32 .signed (operand32 value) diag s

/-- F2I.F64.S32 (R114). -/
def execF2iF64S32 (diag : Bool) (value : Word) (s : State) : Host.Outcome State Fault Refusal :=
  runF2I .f64 32 .signed (operand64 value) diag s

/-- F2I.F32.S64 (R115). -/
def execF2iF32S64 (diag : Bool) (value : Word) (s : State) : Host.Outcome State Fault Refusal :=
  runF2I .f32 64 .signed (operand32 value) diag s

/-- F2I.F64.S64 (R116). -/
def execF2iF64S64 (diag : Bool) (value : Word) (s : State) : Host.Outcome State Fault Refusal :=
  runF2I .f64 64 .signed (operand64 value) diag s

end Sys2Proof.Machine
end

