-- ==== Sys2Proof/Machine/NormRound.lean ====
section
/-! DEFINITION. The normalization and rounding engine (spec/42_normalize_round.md R80 to R89), on unbounded naturals
(spec/44_other_instruction_classes.md R55). -/

namespace Sys2Proof.Machine

/-- The exponent before rounding, `BIAS + n - 1` (R82). -/
def initialExp (F : FloatFormat) (n : Nat) : Nat := F.bias + n - 1

/-- The engine aligns to the left when n < WORKW (R83), else to the right (R84). -/
def alignsLeft (F : FloatFormat) (n : Nat) : Bool := n < F.workW

/-- The amount of the alignment shift: WORKW - n to the left, n - WORKW to the right (R83, R84). -/
def alignAmount (F : FloatFormat) (n : Nat) : Nat := if alignsLeft F n then F.workW - n else n - F.workW

/-- The sticky bit of the alignment: 0 on the left branch (R83, R84). -/
def alignSticky (F : FloatFormat) (n m : Nat) : Bool :=
  if alignsLeft F n then false else stickyOut m (alignAmount F n)

/-- The aligned magnitude, the sticky bit ORed into bit 0 (R83, R84). -/
def aligned (F : FloatFormat) (n m : Nat) : Nat :=
  if alignsLeft F n then m <<< alignAmount F n
  else (m >>> alignAmount F n) ||| (alignSticky F n m).toNat

/-- The work register, masked to WORKW bits (R85). -/
def workReg (F : FloatFormat) (n m : Nat) : Nat := aligned F n m % 2 ^ F.workW

/-- The kept significand after the rounding increment: `w >> 3`, plus 1 when rounding up (R86, R87). -/
def keptRounded (r : RoundRule) (w : Nat) : Nat := (w >>> guardBits) + (roundUp r w).toNat

/-- The exponent after the carry step (R88). -/
def exponentAfter (F : FloatFormat) (e kept : Nat) : Nat := if carryOut F kept then e + 1 else e

/-- The final significand field: the leading 1 dropped (R89). -/
def fracOf (F : FloatFormat) (kept : Nat) : Nat := kept % 2 ^ F.sigBits

/-- An exponent below EMAX fits the exponent field: the precondition of `fromParts` (spec/40_repr_pack_unpack.md R44). -/
theorem exp_fits {F : FloatFormat} {e : Nat} (h : ¬ F.emax ≤ e) : e < 2 ^ F.expBits := by
  unfold FloatFormat.emax at h; omega

/-- The final significand field fits. -/
theorem frac_fits (F : FloatFormat) (kept : Nat) : fracOf F kept < 2 ^ F.sigBits :=
  Nat.mod_lt _ (Nat.two_pow_pos _)

/-- The end of the engine: signed infinity on exponent overflow, else the packed result (R88, R89). -/
def packRounded (F : FloatFormat) (s : Bool) (e kept : Nat) : BitVec F.total :=
  if h : F.emax ≤ e then infinity F s
  else fromParts F
    { sign := s, exp := BitVec.ofNatLT e (exp_fits h), frac := BitVec.ofNatLT (fracOf F kept) (frac_fits F kept) }

/-- NORMROUND(F, W, s, m) (R80). The re-check for infinity of R88 stands after the carry step; without a carry the
exponent is the one that passed R82's test. -/
def normRound (r : RoundRule) (F : FloatFormat) (W : Nat) (s : Bool) (m : Nat) : BitVec F.total :=
  let n := payloadLen W m
  let e := initialExp F n
  if F.emax ≤ e then infinity F s
  else
    let kept := keptRounded r (workReg F n m)
    packRounded F s (exponentAfter F e kept) kept

end Sys2Proof.Machine
end

