-- ==== Sys2Proof/Machine/IntToFp.lean ====
section
/-! DEFINITION. Integer to floating point: the generic conversion (spec/41_int_to_fp.md R60 to R63), what it shows on
DBG (spec/60_exceptions.md R128), and the eight operations (R64 to R71). -/

namespace Sys2Proof.Machine

/-- I2F(W, sg, F, x) (R60): positive zero for 0 (R61), else the sign and magnitude (R62) through the engine (R63). -/
def i2f (r : RoundRule) (W : Nat) (sg : Signedness) (F : FloatFormat) (x : BitVec W) : BitVec F.total :=
  if x = 0 then 0
  else normRound r F W (signMag W sg x).1 (signMag W sg x).2

/-- The engine's fields on DBG, for a nonzero magnitude (R128). After the infinity exit of R82 only what stands before
it is meaningful, and after the one of R88 all but `frac` (log 8); no in-scope operand takes either. -/
def engineTrace (r : RoundRule) (F : FloatFormat) (W : Nat) (s : Bool) (m : Nat) : DbgTrace :=
  let n := payloadLen W m
  let e := initialExp F n
  if F.emax ≤ e then { isZero := some false, s := some s, m := some m, n := some n, e := some e }
  else
    let w := workReg F n m
    let kept := keptRounded r w
    let e' := exponentAfter F e kept
    { isZero := some false, s := some s, m := some m, n := some n, e := some e
      shiftLeft := some (alignsLeft F n), shiftAmt := some (alignAmount F n), sticky := some (alignSticky F n m)
      w := some w, up := some (roundUp r w), carry := some (carryOut F kept), eFinal := some e'
      frac := if F.emax ≤ e' then none else some (fracOf F kept) }

/-- DBG of an integer to float operation (R128); on a zero operand `is_zero` alone is meaningful (log 8). -/
def i2fTrace (r : RoundRule) (W : Nat) (sg : Signedness) (F : FloatFormat) (x : BitVec W) : DbgTrace :=
  if x = 0 then { isZero := some true }
  else engineTrace r F W (signMag W sg x).1 (signMag W sg x).2

/-- The shared body of the eight operations: convert, drive RES (R33) and DBG. No fault, no flag (R60). -/
def runI2F (W : Nat) (sg : Signedness) (F : FloatFormat) (x : BitVec W) (diag : Bool) (s : State) :
    Host.Outcome State Fault Refusal :=
  .next (s.drive diag (resultWord (i2f s.config.roundRule W sg F x)) (i2fTrace s.config.roundRule W sg F x))

/-- I2F.U32.F32 (R64). -/
def execI2fU32F32 (diag : Bool) (value : Word) (s : State) : Host.Outcome State Fault Refusal :=
  runI2F 32 .unsigned .f32 (operand32 value) diag s

/-- I2F.U32.F64 (R65). -/
def execI2fU32F64 (diag : Bool) (value : Word) (s : State) : Host.Outcome State Fault Refusal :=
  runI2F 32 .unsigned .f64 (operand32 value) diag s

/-- I2F.U64.F32 (R66). -/
def execI2fU64F32 (diag : Bool) (value : Word) (s : State) : Host.Outcome State Fault Refusal :=
  runI2F 64 .unsigned .f32 (operand64 value) diag s

/-- I2F.U64.F64 (R67). -/
def execI2fU64F64 (diag : Bool) (value : Word) (s : State) : Host.Outcome State Fault Refusal :=
  runI2F 64 .unsigned .f64 (operand64 value) diag s

/-- I2F.S32.F32 (R68). -/
def execI2fS32F32 (diag : Bool) (value : Word) (s : State) : Host.Outcome State Fault Refusal :=
  runI2F 32 .signed .f32 (operand32 value) diag s

/-- I2F.S32.F64 (R69). -/
def execI2fS32F64 (diag : Bool) (value : Word) (s : State) : Host.Outcome State Fault Refusal :=
  runI2F 32 .signed .f64 (operand32 value) diag s

/-- I2F.S64.F32 (R70). -/
def execI2fS64F32 (diag : Bool) (value : Word) (s : State) : Host.Outcome State Fault Refusal :=
  runI2F 64 .signed .f32 (operand64 value) diag s

/-- I2F.S64.F64 (R71). -/
def execI2fS64F64 (diag : Bool) (value : Word) (s : State) : Host.Outcome State Fault Refusal :=
  runI2F 64 .signed .f64 (operand64 value) diag s

end Sys2Proof.Machine
end

