-- ==== Sys2Proof/Machine/Dispatch.lean ====
section
/-! DEFINITION. The dispatch: one arm per operation of spec/30_encoding.md R34. -/

namespace Sys2Proof.Machine

def exec (i : Instr) (s : State) : Host.Outcome State Fault Refusal :=
  match i with
  | .i2fU32F32 diag value => Sys2Proof.Machine.execI2fU32F32 diag value s
  | .i2fU32F64 diag value => Sys2Proof.Machine.execI2fU32F64 diag value s
  | .i2fU64F32 diag value => Sys2Proof.Machine.execI2fU64F32 diag value s
  | .i2fU64F64 diag value => Sys2Proof.Machine.execI2fU64F64 diag value s
  | .i2fS32F32 diag value => Sys2Proof.Machine.execI2fS32F32 diag value s
  | .i2fS32F64 diag value => Sys2Proof.Machine.execI2fS32F64 diag value s
  | .i2fS64F32 diag value => Sys2Proof.Machine.execI2fS64F32 diag value s
  | .i2fS64F64 diag value => Sys2Proof.Machine.execI2fS64F64 diag value s
  | .f2iF32U32 diag value => Sys2Proof.Machine.execF2iF32U32 diag value s
  | .f2iF64U32 diag value => Sys2Proof.Machine.execF2iF64U32 diag value s
  | .f2iF32U64 diag value => Sys2Proof.Machine.execF2iF32U64 diag value s
  | .f2iF64U64 diag value => Sys2Proof.Machine.execF2iF64U64 diag value s
  | .f2iF32S32 diag value => Sys2Proof.Machine.execF2iF32S32 diag value s
  | .f2iF64S32 diag value => Sys2Proof.Machine.execF2iF64S32 diag value s
  | .f2iF32S64 diag value => Sys2Proof.Machine.execF2iF32S64 diag value s
  | .f2iF64S64 diag value => Sys2Proof.Machine.execF2iF64S64 diag value s

end Sys2Proof.Machine
end

