-- ==== Sys2Proof/Machine/Step.lean ====
section
/-! DEFINITION. One step: one request answered, `RES <- CONVERT(REQ)` (spec/10_state.md R16). The block has no program
counter and fetches nothing (R16, spec/20_memory.md R26); the operation is the one on port REQ. -/

namespace Sys2Proof.Machine

/-- The request on REQ is decoded and answered. REQ stays as the host drives it. -/
def step (s : State) : Host.Outcome State Fault Refusal := exec (decode s.req) s

/-- The host drives REQ with an opcode-table word of `nbits` bits, the bits above them 0; the very next step answers
it. No program is loaded, for the block holds none (log 16). DESIGN CHOICE, log 12: REQ has 69 wires, so of a number of
2^69 or more, which is no request and which the decoder rejects, the bits above 68 reach no wire and the step answers
the request of the low 69 bits. -/
def State.withFetchWord (s : State) (nbits w : Nat) : State := s.present (BitVec.ofNat 69 (w % 2 ^ nbits))

end Sys2Proof.Machine
end

