-- ==== Sys2Proof/Machine/Convert.lean ====
section
/-! DEFINITION. CONVERT as a function of the request word, on the subfields of `op` (spec/30_encoding.md R31, R34), and
the output ports as the combinational functions of REQ they are (spec/10_state.md R12, R13). The step's 16 arms are a
second writing of the same function. -/

namespace Sys2Proof.Machine

/-- CONVERT(REQ) (R34), each of DIR, SGN, IW, FF decoded independently (R31); operand and result assembled by widths
(R32, R33). -/
def convert (r : RoundRule) (req : Request) : Word :=
  let op := reqOp req
  match opDir op with
  | .intToFloat =>
    resultWord (i2f r (opIntWidth op) (opSgn op) (opFormat op) ((reqValue req).setWidth (opIntWidth op)))
  | .floatToInt =>
    resultWord (f2i (opFormat op) (opIntWidth op) (opSgn op) ((reqValue req).setWidth (opFormat op).total))

/-- The wire RES: "at every instant RES equals the value the rules give for the current REQ" (R12). -/
def State.resPort (s : State) : Word := convert s.config.roundRule s.req

/-- The wire DBG.valid: REQ.diag at every instant (R13). -/
def State.dbgValidPort (s : State) : Bool := reqDiag s.req

end Sys2Proof.Machine
end

