-- ==== Sys2Proof/WellFormed.lean ====
section
/-! DEFINITION. Which terms are legal. Every request is: no encoding is illegal or reserved, every value is an operand
of every operation (spec/30_encoding.md R35), so the check of an instruction refuses nothing. The checks that refuse
are those of the host's notation (R36, R37). -/

namespace Sys2Proof

/-- Every instruction is well formed (R35: "every one of the 2^69 request words selects exactly one operation"). -/
def Instr.wf : Instr → Bool
  | .i2fU32F32 _ _ | .i2fU32F64 _ _ | .i2fU64F32 _ _ | .i2fU64F64 _ _
  | .i2fS32F32 _ _ | .i2fS32F64 _ _ | .i2fS64F32 _ _ | .i2fS64F64 _ _
  | .f2iF32U32 _ _ | .f2iF64U32 _ _ | .f2iF32U64 _ _ | .f2iF64U64 _ _
  | .f2iF32S32 _ _ | .f2iF64S32 _ _ | .f2iF32S64 _ _ | .f2iF64S64 _ _ => true

/-- Line `k` of a host program: a literal has the operation's source width (R36), and a named value is one of an
earlier line (R37). -/
def Line.wf (k : Nat) (l : Line) : Bool :=
  match l.src with
  | .lit v => v.toNat < 2 ^ srcWidth l.op
  | .val j => j < k

/-- The lines of a host program from line `k` on are all well formed. -/
def linesWf : Nat → List Line → Bool
  | _, [] => true
  | k, l :: ls => l.wf k && linesWf (k + 1) ls

end Sys2Proof
end

