-- ==== Sys2Proof/Machine/HostSide.lean ====
section
/-! DEFINITION. The host's side: asking for one result (spec/70_reset_and_hazards.md R147), host programs
(spec/30_encoding.md R37), and a system of several blocks (R131, R146). Nothing here is state of the block. -/

namespace Sys2Proof.Machine

/-- The host presents a request and takes RES while REQ holds it (R147). -/
def ask (r : Request) (s : State) : Option (Word × State) :=
  match step (s.present r) with
  | .next t => some (t.res, t)
  | .fault _ => none
  | .refused _ => none

/-- The operand field a line presents: its literal, or the RES of an earlier line (R37). -/
def sourceValue (vals : List Word) : Source → Option Word
  | .lit v => some v
  | .val j => vals[j]?

/-- A host program's lines, run in order; `vals` are the values v0, v1, … named so far (R37). -/
def runLines : List Line → List Word → State → Option (List Word × State)
  | [], vals, s => some (vals, s)
  | l :: ls, vals, s =>
    match sourceValue vals l.src with
    | none => none
    | some v =>
      match ask (mkRequest l.diag l.op v) s with
      | none => none
      | some (res, t) => runLines ls (vals ++ [res]) t

/-- NUM_INSTANCES blocks side by side, sharing nothing (R131, R146). DESIGN CHOICE, log 5: the parameter is the length
of the list. The type alone lets blocks differ in ROUND_RULE; `System.wf` does not (log 17). -/
structure System where
  blocks : List State
  deriving DecidableEq, Repr

/-- The parameter NUM_INSTANCES (spec/00_scope.md R5). -/
def System.numBlocks (sys : System) : Nat := sys.blocks.length

/-- NUM_INSTANCES is at least 1 (R5), and all instances are built with the same parameters, ROUND_RULE among them. The
spec does not say the second in so many words; it is what makes "the results are the same either way" true (R146,
spec/92_eei_decisions.md D22: the result "does not depend on which instance serves it"). DESIGN CHOICE, log 17. -/
def System.wf (sys : System) : Bool :=
  1 ≤ sys.numBlocks && sys.blocks.all fun a => sys.blocks.all fun b => a.config = b.config

/-- Requests presented to the blocks in any order, each to the block of its number; the results in that order. -/
def System.serve (sys : System) : List (Nat × Request) → Option (List Word × System)
  | [] => some ([], sys)
  | (k, r) :: rest =>
    match sys.blocks[k]? with
    | none => none
    | some s =>
      match ask r s with
      | none => none
      | some (v, t) =>
        match System.serve { blocks := sys.blocks.set k t } rest with
        | none => none
        | some (vs, sys') => some (v :: vs, sys')

end Sys2Proof.Machine
end

