-- ==== Sys2Proof/Machine/Value.lean ====
section
/-! DEFINITION. The numeric reading of a floating-point pattern (spec/40_repr_pack_unpack.md R48,
spec/93_implementation_defined.md G4). No operation computes with it: the conversion rules work on the fields; it is
used to state properties only. -/

namespace Sys2Proof.Machine

/-- The value (-1)^s * (2^M + frac) * 2^(e - BIAS - M) of a pattern with 0 < e < EMAX, exactly (R48). -/
def normalValue (F : FloatFormat) (b : BitVec F.total) : ℚ :=
  let p := unpack F b
  (if p.sign then -1 else 1) * (sigWithImplicit F p.frac : ℚ)
    * (2 : ℚ) ^ ((p.exp.toNat : ℤ) - (F.bias : ℤ) - (F.sigBits : ℤ))

/-- What a pattern stands for (R48). The spec gives a subnormal no formula; its magnitude is below 1 (R102). -/
inductive FloatClass where
  | zero (sign : Bool)
  | subnormal (sign : Bool)
  | normal (value : ℚ)
  | infinite (sign : Bool)
  | nan (sign : Bool)
  deriving DecidableEq, Repr

/-- The class of a pattern (R48). -/
def classify (F : FloatFormat) (b : BitVec F.total) : FloatClass :=
  let p := unpack F b
  if p.exp.toNat = F.emax then (if p.frac = 0 then .infinite p.sign else .nan p.sign)
  else if p.exp = 0 then (if p.frac = 0 then .zero p.sign else .subnormal p.sign)
  else .normal (normalValue F b)

/-- The number a pattern stands for: 0 for a zero of either sign, R48's formula for a normal number; none for an
infinity or a NaN, and none for a subnormal, of which the spec writes no formula (log 3). -/
def valueOf (F : FloatFormat) (b : BitVec F.total) : Option ℚ :=
  match classify F b with
  | .zero _ => some 0
  | .normal v => some v
  | .subnormal _ => none
  | .infinite _ => none
  | .nan _ => none

/-- Truncation of a rational toward zero. -/
def truncate (q : ℚ) : Int := if 0 ≤ q then q.floor else -((-q).floor)

end Sys2Proof.Machine
end

