-- ==== Sys2Proof/Safety.lean ====
section
/-! DEFINITION. What counts as a safe run of the block, in the terms claims use: every request is answered, only the
output ports change, and the ports agree with one another. -/

namespace Sys2Proof.Machine

/-- The frame of every operation: REQ is the host's and ROUND_RULE is a build-time constant, so neither changes
(spec/10_state.md R10, R18). RES and DBG, the output ports, are all that is left of the block (R23); the model's own
counter of free values is no part of it. -/
def OnlyPortsChange (s t : State) : Prop :=
  t.req = s.req ∧ t.config = s.config

/-- Operation `i` is answered in state `s`, and RES carries a pattern of format `F` with `P`, zero-extended
(spec/30_encoding.md R33). -/
def AnswersFloat (i : Instr) (s : State) (F : FloatFormat) (P : BitVec F.total → Prop) : Prop :=
  ∃ t b, exec i s = .next t ∧ OnlyPortsChange s t ∧ t.dbg.valid = i.diag ∧ t.res.toNat = b.toNat ∧ P b

/-- Operation `i` is answered in state `s`, and RES carries a `W`-bit integer with `P`, zero-extended (R33). -/
def AnswersInt (i : Instr) (s : State) (W : Nat) (P : BitVec W → Prop) : Prop :=
  ∃ t b, exec i s = .next t ∧ OnlyPortsChange s t ∧ t.dbg.valid = i.diag ∧ t.res.toNat = b.toNat ∧ P b

/-- The widths of the spec: W is 32 or 64 (spec/00_scope.md R2). -/
def InScopeWidth (W : Nat) : Prop := W = 32 ∨ W = 64

/-- The weight of the lowest kept bit of the integer `i` in format `F`: 2^(n - M - 1) for a magnitude of `n` bits
(spec/42_normalize_round.md R90 (e)). -/
def unitOf (F : FloatFormat) (i : ℤ) : ℚ := 2 ^ ((Nat.size i.natAbs : ℤ) - (F.sigBits : ℤ) - 1)

/-- `i` converts exactly: the bits of its magnitude below its top M+1 bits are all 0 (R90 (c)). -/
def ConvertsExactly (F : FloatFormat) (i : ℤ) : Prop :=
  2 ^ (Nat.size i.natAbs - (F.sigBits + 1)) ∣ i.natAbs

/-- `b` is `i` rounded to less than one unit of its lowest kept bit, and `i` itself when it converts exactly: what
every value of ROUND_RULE gives (R86, R90 (c)). -/
def RoundedWithinUnit (F : FloatFormat) (i : ℤ) (b : BitVec F.total) : Prop :=
  (i = 0 → b = 0) ∧
  (i ≠ 0 → ∃ v, classify F b = .normal v ∧ |v - i| < unitOf F i ∧ (v < 0 ↔ i < 0) ∧
    (ConvertsExactly F i → v = i))

/-- `b` is the value of the format nearest to `i`, of two equally near ones the one nearer zero (R86). -/
def NearestTiesTowardZero (F : FloatFormat) (i : ℤ) (b : BitVec F.total) : Prop :=
  (i = 0 → b = 0) ∧
  (i ≠ 0 → ∃ v, classify F b = .normal v ∧
    ∀ b' v', classify F b' = .normal v' → |v - i| ≤ |v' - i| ∧ (|v - i| = |v' - i| → |v| ≤ |v'|))

/-- `r` is the operand `b` truncated toward zero and saturated to the destination; zeros and subnormals give 0, and
infinities and NaNs an extreme by their sign (spec/43_fp_to_int.md R108, R117). -/
def TruncatedSaturated (F : FloatFormat) (W : Nat) (sg : Signedness) (b : BitVec F.total) (r : BitVec W) : Prop :=
  match classify F b with
  | .zero _ => r = 0
  | .subnormal _ => r = 0
  | .normal v => intValue sg r = max (imin W sg) (min (truncate v) (imax W sg))
  | .infinite s => intValue sg r = if s then imin W sg else imax W sg
  | .nan s => intValue sg r = if s then imin W sg else imax W sg

/-- What RES and a valid DBG say of the same integer to float conversion (spec/60_exceptions.md R128). -/
def I2fPortsAgree (F : FloatFormat) (f : DbgFields) (res : Word) : Prop :=
  (f.isZero = true → res = 0) ∧
  (f.isZero = false →
    f.eFinal = f.e + f.carry.toNat ∧ f.frac < 2 ^ F.sigBits ∧ (f.carry = true → f.frac = 0) ∧
    2 ^ (F.sigBits + 3) ≤ f.w ∧ f.w < 2 ^ (F.sigBits + 4) ∧
    res.toNat = f.s.toNat * 2 ^ (F.total - 1) + f.eFinal * 2 ^ F.sigBits + f.frac)

/-- What RES and a valid DBG say of the same float to integer conversion (R128). -/
def F2iPortsAgree (F : FloatFormat) (W : Nat) (sg : Signedness) (f : DbgFields) (res : Word) : Prop :=
  (f.belowOne = true → res = 0) ∧
  (f.belowOne = false → f.u + F.bias = f.e ∧
    (f.saturated = true → W ≤ f.u ∧ intValue sg (res.setWidth W) = if f.s then imin W sg else imax W sg) ∧
    (f.saturated = false → f.u < W ∧ 2 ^ f.u ≤ f.mag ∧ f.mag < 2 ^ (f.u + 1) ∧
      (f.clamped = false → intValue sg (res.setWidth W) = if f.s then -(f.mag : ℤ) else f.mag) ∧
      (f.clamped = true → intValue sg (res.setWidth W) = if f.s then imin W sg else imax W sg)))

/-- RES, DBG and REQ agree: RES = CONVERT(REQ), DBG.valid = REQ.diag (spec/10_state.md R12, R13), and a valid DBG
tells of the conversion whose result stands on RES. -/
def State.Settled (s : State) : Prop :=
  s.res = s.resPort ∧ s.dbg.valid = s.dbgValidPort ∧
  (s.dbg.valid = true →
    match opDir (reqOp s.req) with
    | .intToFloat => I2fPortsAgree (opFormat (reqOp s.req)) s.dbg.fields s.res
    | .floatToInt =>
      F2iPortsAgree (opFormat (reqOp s.req)) (opIntWidth (reqOp s.req)) (opSgn (reqOp s.req)) s.dbg.fields s.res)

end Sys2Proof.Machine
end

