-- ==== Sys2Proof/Certificates/Slice0/Obligations.lean ====
section
/-! DEFINITION. The statements for the provers. Each docstring names the rules of spec/ the statement comes from, and
the decision D<n> of spec/92_eei_decisions.md where the spec marks a rule as its own decision (log 11). -/

open Sys2Proof Sys2Proof.Machine

/-! ## Requests and their encoding (spec/30_encoding.md) -/

/-- R30, R34 (the spec's decisions D2, D3) on request words the spec writes out (spec/95_test_vectors.md part 6, part
7). -/
def Obligations.SampleRequestWordsDecode : Prop :=
  decode 0x04DEADBEEFFFFFFFFF = .i2fS32F32 false 0xDEADBEEFFFFFFFFF ∧
  decode 0x0C00000000BFC00000 = .f2iF32S32 false 0x00000000BFC00000 ∧
  decode 0x1C00000000BFC00000 = .f2iF32S32 true 0x00000000BFC00000 ∧
  decode 0x0E00000000BFC00000 = .f2iF32S64 false 0x00000000BFC00000 ∧
  decode 0x13FFFFFFFFFFFFFC01 = .i2fU64F64 true 0xFFFFFFFFFFFFFC01 ∧
  decode 0x0DFFF8000000000001 = .f2iF64S32 false 0xFFF8000000000001 ∧
  decode 0x010000000001000003 = .i2fU32F64 false 0x0000000001000003 ∧
  decode 0x0B4170000030000000 = .f2iF64U64 false 0x4170000030000000

/-- R30 (the spec's decision D2): one format; diag is REQ[68], op REQ[67:64] with DIR, SGN, IW, FF its bits from the
top, value REQ[63:0]; op alone selects the operation. -/
def Obligations.RequestFieldsSelectTheOperation : Prop :=
  ∀ w : Request,
    (decode w).diag = w.getLsbD 68 ∧
    (decode w).opcode = w.extractLsb' 64 4 ∧
    (decode w).value = w.extractLsb' 0 64 ∧
    (opDir (decode w).opcode = .floatToInt ↔ w.getLsbD 67 = true) ∧
    (opSgn (decode w).opcode = .signed ↔ w.getLsbD 66 = true) ∧
    (opIntWidth (decode w).opcode = 64 ↔ w.getLsbD 65 = true) ∧
    (opFormat (decode w).opcode = .f64 ↔ w.getLsbD 64 = true) ∧
    ∀ w' : Request, w'.extractLsb' 64 4 = w.extractLsb' 64 4 → (decode w').opcode = (decode w).opcode

/-- R31 (the spec's decision D3): the subfields of op, and the source and destination widths. -/
def Obligations.OperationSubfieldsAndWidths : Prop :=
  ∀ op : BitVec 4,
    (opDir op = .floatToInt ↔ op.getLsbD 3 = true) ∧
    (opSgn op = .signed ↔ op.getLsbD 2 = true) ∧
    opIntWidth op = (if op.getLsbD 1 then 64 else 32) ∧
    (opFormat op = .f64 ↔ op.getLsbD 0 = true) ∧
    srcWidth op = (if op.getLsbD 3 then (if op.getLsbD 0 then 64 else 32) else (if op.getLsbD 1 then 64 else 32)) ∧
    dstWidth op = (if op.getLsbD 3 then (if op.getLsbD 1 then 64 else 32) else (if op.getLsbD 0 then 64 else 32))

/-- R30, R35 (the spec's decisions D2, D23): encoding and decoding are inverse, on every instruction and on every
request word. -/
def Obligations.DecodeAndEncodeAreInverse : Prop :=
  (∀ i : Instr, i.wf = true → decode (encode i) = i) ∧ (∀ w : Request, encode (decode w) = w)

/-- R35 (the spec's decision D23): a decoder is total on 69 bits. That a wider number is rejected is the model's
choice (log 12). -/
def Obligations.DecoderTotalOnRequestWords : Prop :=
  (∀ n, n < 2 ^ 69 → ∃ i, decodeNat n = .ok i ∧ (encode i).toNat = n ∧ decodeTableWord 72 n = some i) ∧
  (∀ n, 2 ^ 69 ≤ n → decodeNat n = .error .widerThanRequest)

/-- R36 (the spec's decision D4): the assembled request of an operand selects the operation, sets diag by the suffix,
and its operand is read back at the source width, with the bits above it 0. -/
def Obligations.AssembledRequestReadsBack : Prop :=
  ∀ (op : BitVec 4) (d : Bool) (x : BitVec (srcWidth op)),
    (decode (assemble op d x)).opcode = op ∧
    (decode (assemble op d x)).diag = d ∧
    (decode (assemble op d x)).value.setWidth (srcWidth op) = x ∧
    (decode (assemble op d x)).value.toNat < 2 ^ srcWidth op

/-! ## The step -/

/-- R16 (the spec's decision D17; log 6, log 16): a step answers the operation on port REQ, and the word the host
places there is the very next one answered. -/
def Obligations.StepRunsTheDecodedRequest : Prop :=
  (∀ (s : State) (i : Instr), decode s.req = i → i.wf = true → step s = exec i s) ∧
  (∀ (s : State) (w : Nat) (i : Instr), decodeTableWord 72 w = some i → w < 2 ^ 72 →
    step (s.withFetchWord 72 w) = exec i (s.withFetchWord 72 w))

/-- R35, R120: every request is answered with a next state, the ports alone change, and every operation code, flag and
operand is a request of some operation. -/
def Obligations.EveryRequestIsAnswered : Prop :=
  (∀ s : State, ∃ t, step s = .next t ∧ OnlyPortsChange s t) ∧
  (∀ (d : Bool) (op : BitVec 4) (v : Word), ∃ i : Instr, encode i = mkRequest d op v)

/-- R12, R13, R34: the 16 arms together compute CONVERT of the request, as the independent subfields of op give it
(R31), and DBG.valid is REQ.diag. -/
def Obligations.StepComputesConvert : Prop :=
  ∀ s : State, ∃ t, step s = .next t ∧ OnlyPortsChange s t ∧
    t.res = convert s.config.roundRule s.req ∧ t.res = t.resPort ∧ t.dbg.valid = reqDiag s.req

/-- R140: right after reset the ports agree. That REQ is 0 there is the model's choice (log 1). -/
def Obligations.ResetPortsAreSettled : Prop := State.reset.Settled

/-- R140: the first request after reset is converted like any other. That ROUND_RULE stands at HALF_DOWN_G3 after
reset is the model's choice (log 4): the spec leaves the parameter OPEN, with that default (R5, decision D9). -/
def Obligations.FirstRequestAfterReset : Prop :=
  ∀ r : Request, ∃ t, step (State.reset.present r) = .next t ∧ t.res = convert .halfDownG3 r ∧
    t.dbg.valid = reqDiag r

/-- R12, R13, R128: the invariant Settled. A step keeps it, and establishes it again after any move of the host. -/
def Obligations.StepKeepsPortsSettled : Prop :=
  ∀ s t : State, step s = .next t → t.Settled

/-- R9, R10, R24: the result depends on the request and the build parameter alone, on nothing an earlier operation
left behind. -/
def Obligations.ResultDependsOnRequestAlone : Prop :=
  ∀ s s' : State, s.req = s'.req → s.config = s'.config →
    ∃ t t', step s = .next t ∧ step s' = .next t' ∧ t.res = t'.res ∧ t.dbg.valid = t'.dbg.valid

/-- R23, R143: presenting the same request again gives the same result. -/
def Obligations.RepeatedRequestRepeatsResult : Prop :=
  ∀ s t : State, step s = .next t → ∃ u, step t = .next u ∧ u.res = t.res ∧ u.req = t.req

/-- R127: "For all op and value: RES for {diag = 1, op, value} equals RES for {diag = 0, op, value}". -/
def Obligations.DiagNeverChangesResult : Prop :=
  ∀ (s : State) (op : BitVec 4) (value : Word), ∃ t u,
    step (s.present (mkRequest true op value)) = .next t ∧
    step (s.present (mkRequest false op value)) = .next u ∧ t.res = u.res

/-- R32 (the spec's decision D5): the upper half of `value` affects neither RES nor DBG when the operand is 32 bits
wide. For the DBG fields the spec leaves unspecified, the equality rests on the model's choice of log 7. -/
def Obligations.UpperOperandHalfIgnored : Prop :=
  ∀ (s : State) (d : Bool) (op : BitVec 4) (v v' : Word),
    srcWidth op = 32 → v.setWidth 32 = v'.setWidth 32 → ∃ t u,
      step (s.present (mkRequest d op v)) = .next t ∧ step (s.present (mkRequest d op v')) = .next u ∧
      t.res = u.res ∧ t.dbg = u.dbg

/-- R33 (the spec's decision D6): a 32-bit result leaves RES[63:32] at 0, a negative integer included. -/
def Obligations.UpperResultHalfZero : Prop :=
  ∀ (s : State) (d : Bool) (op : BitVec 4) (v : Word), dstWidth op = 32 →
    ∃ t, step (s.present (mkRequest d op v)) = .next t ∧ t.res.extractLsb' 32 32 = 0

/-- R72 (d), R107, R113: the source's concrete cases, and 4.0 giving 4 and not 5 (E1 to E5). -/
def Obligations.SourceConcreteCases : Prop :=
  ∀ (s : State) (d : Bool),
    AnswersFloat (.i2fS32F32 d 0x00000000) s .f32 (· = 0x00000000#32) ∧
    AnswersFloat (.i2fS32F32 d 0xFFFFFFFF) s .f32 (· = 0xBF800000#32) ∧
    AnswersInt (.f2iF32S32 d 0xBFC00000) s 32 (· = 0xFFFFFFFF#32) ∧
    AnswersInt (.f2iF32S32 d 0x7149F2CA) s 32 (· = 0x7FFFFFFF#32) ∧
    AnswersInt (.f2iF32S32 d 0xF149F2CA) s 32 (· = 0x80000000#32) ∧
    AnswersInt (.f2iF32S32 d 0x40800000) s 32 (· = 4) ∧
    AnswersInt (.f2iF32U32 d 0x40800000) s 32 (· = 4) ∧
    AnswersInt (.f2iF64S64 d 0x4010000000000000) s 64 (· = 4)

/-! ## Representation and integer view (spec/40_repr_pack_unpack.md) -/

/-- R41, R42 (their numbers are the spec's derivation from R40, decision D8): bias, maximum exponent and the masks of
both formats. -/
def Obligations.FormatConstants : Prop :=
  (∀ F : FloatFormat, F.bias = 2 ^ (F.expBits - 1) - 1 ∧ F.emax = 2 ^ F.expBits - 1) ∧
  FloatFormat.f32.bias = 127 ∧ FloatFormat.f32.emax = 255 ∧
  FloatFormat.f64.bias = 1023 ∧ FloatFormat.f64.emax = 2047 ∧
  (FloatFormat.f32.total, FloatFormat.f32.sigBits, FloatFormat.f32.expBits) = (32, 23, 8) ∧
  (FloatFormat.f64.total, FloatFormat.f64.sigBits, FloatFormat.f64.expBits) = (64, 52, 11) ∧
  FloatFormat.f32.signMask = 0x80000000#32 ∧ FloatFormat.f32.expMask = 0x7F800000#32 ∧
  FloatFormat.f32.sigMask = 0x007FFFFF#32 ∧ FloatFormat.f32.implicitMask = 0x00800000#32 ∧
  FloatFormat.f64.signMask = 0x8000000000000000#64 ∧ FloatFormat.f64.expMask = 0x7FF0000000000000#64 ∧
  FloatFormat.f64.sigMask = 0x000FFFFFFFFFFFFF#64 ∧ FloatFormat.f64.implicitMask = 0x0010000000000000#64

/-- R44, R45 (the layout is the spec's decision D8): `fromParts` packs {s, e, frac}; its fields are within their
ranges, and every triple in range has a value of that type. -/
def Obligations.FromPartsPacksFields : Prop :=
  (∀ (F : FloatFormat) (p : FloatParts F),
    bitsOf F (fromParts F p) = p.sign.toNat * 2 ^ (F.total - 1) + p.exp.toNat * 2 ^ F.sigBits + p.frac.toNat ∧
    p.exp.toNat ≤ F.emax ∧ p.frac.toNat < 2 ^ F.sigBits) ∧
  (∀ (F : FloatFormat) (s : Bool) (e frac : Nat), e ≤ F.emax → frac < 2 ^ F.sigBits →
    ∃ p : FloatParts F, p.sign = s ∧ p.exp.toNat = e ∧ p.frac.toNat = frac)

/-- R46 (the layout is the spec's decision D8): `unpack` by slices and by masks, and its round trip with `fromParts`. -/
def Obligations.UnpackIsTheInverseOfPack : Prop :=
  (∀ (F : FloatFormat) (b : BitVec F.total),
    (unpack F b).sign = b.getLsbD (F.total - 1) ∧
    ((unpack F b).sign = true ↔ b &&& F.signMask ≠ 0) ∧
    (unpack F b).exp = b.extractLsb' F.sigBits F.expBits ∧
    (unpack F b).exp.toNat = ((b &&& F.expMask) >>> F.sigBits).toNat ∧
    (unpack F b).frac = b.extractLsb' 0 F.sigBits ∧
    (unpack F b).frac.toNat = (b &&& F.sigMask).toNat ∧
    fromParts F (unpack F b) = b) ∧
  (∀ (F : FloatFormat) (p : FloatParts F), unpack F (fromParts F p) = p)

/-- R47: the significand with the implicit bit forced set. -/
def Obligations.ImplicitBitForcedSet : Prop :=
  ∀ (F : FloatFormat) (frac : BitVec F.sigBits),
    sigWithImplicit F frac = 2 ^ F.sigBits + frac.toNat ∧
    sigWithImplicit F frac = frac.toNat ||| F.implicitMask.toNat ∧
    2 ^ F.sigBits ≤ sigWithImplicit F frac ∧ sigWithImplicit F frac < 2 ^ (F.sigBits + 1)

/-- R52: `payloadLen` = W - clz, the 1-based position of the most significant 1. -/
def Obligations.PayloadLenIsBitLength : Prop :=
  ∀ W m : Nat, m ≠ 0 → m < 2 ^ W →
    payloadLen W m = W - clz W m ∧ 1 ≤ payloadLen W m ∧ payloadLen W m ≤ W ∧
    2 ^ (payloadLen W m - 1) ≤ m ∧ m < 2 ^ payloadLen W m

/-- R51 (that m = |x| is the spec's derivation from it): sign and exact magnitude, the most negative value included. -/
def Obligations.SignAndMagnitudeExact : Prop :=
  ∀ (W : Nat) (x : BitVec W), 0 < W →
    signMag W .unsigned x = (false, x.toNat) ∧
    (signMag W .signed x).1 = x.getLsbD (W - 1) ∧
    (x.getLsbD (W - 1) = false → (signMag W .signed x).2 = x.toNat) ∧
    (x.getLsbD (W - 1) = true → (signMag W .signed x).2 = (2 ^ W - x.toNat) % 2 ^ W ∧
      (signMag W .signed x).2 = (~~~x + 1).toNat) ∧
    (x.toNat = 2 ^ (W - 1) → (signMag W .signed x).2 = 2 ^ (W - 1)) ∧
    ((signMag W .signed x).2 : ℤ) = |x.toInt| ∧
    (signMag W .unsigned x).2 < 2 ^ W ∧ (signMag W .signed x).2 ≤ 2 ^ (W - 1)

/-- R53 (its values are the spec's derivation from R49): the destination extremes, as integers and as vectors. -/
def Obligations.DestinationExtremes : Prop :=
  (∀ W : Nat, imin W .unsigned = 0 ∧ imax W .unsigned = 2 ^ W - 1 ∧
    imin W .signed = -2 ^ (W - 1) ∧ imax W .signed = 2 ^ (W - 1) - 1) ∧
  toBits 32 (imin 32 .unsigned) = 0 ∧ toBits 32 (imax 32 .unsigned) = 0xFFFFFFFF#32 ∧
  toBits 64 (imin 64 .unsigned) = 0 ∧ toBits 64 (imax 64 .unsigned) = 0xFFFFFFFFFFFFFFFF#64 ∧
  toBits 32 (imin 32 .signed) = 0x80000000#32 ∧ toBits 32 (imax 32 .signed) = 0x7FFFFFFF#32 ∧
  toBits 64 (imin 64 .signed) = 0x8000000000000000#64 ∧ toBits 64 (imax 64 .signed) = 0x7FFFFFFFFFFFFFFF#64

/-! ## The rounding engine (spec/42_normalize_round.md) -/

/-- R83, R84, R85 (sticky 0 at k = 0 and the idle mask are the spec's decisions D10, D11): the aligned work register,
its sticky bit, the leading 1 at bit M+3 and the mask that changes nothing. -/
def Obligations.AlignmentPutsLeadingOneOnTop : Prop :=
  ∀ (F : FloatFormat) (W m : Nat), 1 ≤ m → m < 2 ^ W →
    let n := payloadLen W m
    let k := n - F.workW
    let w := aligned F n m
    F.workW = F.sigBits + 4 ∧
    (n < F.workW → w = m * 2 ^ (F.workW - n) ∧ alignSticky F n m = false) ∧
    (F.workW ≤ n →
      k ≤ W - F.workW ∧ (alignSticky F n m = true ↔ m % 2 ^ k ≠ 0) ∧
      w = (m / 2 ^ k) ||| (alignSticky F n m).toNat ∧
      (w.testBit 0 = true ↔ m.testBit k = true ∨ m % 2 ^ k ≠ 0) ∧
      (k = 0 → alignSticky F n m = false ∧ w = m)) ∧
    (W = 32 → F = .f32 → k ≤ 5) ∧ (W = 64 → F = .f32 → k ≤ 37) ∧ (W = 64 → F = .f64 → k ≤ 8) ∧
    (W = 32 → F = .f64 → n < F.workW) ∧
    w.testBit (F.sigBits + 3) = true ∧ 2 ^ (F.workW - 1) ≤ w ∧ w < 2 ^ F.workW ∧
    workReg F n m = w

/-- R86 (the spec's decision D9; ROUND_RULE is a field of Config, log 4): the two rounding predicates; they agree, and
do not round, when the guard field is 0; the default does not round an exact tie; the rule's example m = 2^26 + 7 to
F32. -/
def Obligations.RoundingPredicates : Prop :=
  (∀ w : Nat, (roundUp .halfDownG3 w = true ↔ 4 < w % 8) ∧
    (roundUp .literalLow4 w = true ↔ 8 < w % 16) ∧
    (roundUp .literalLow4 w = true ↔ w.testBit 3 = true ∧ w % 8 ≠ 0) ∧
    (w % 8 = 0 → roundUp .halfDownG3 w = false ∧ roundUp .literalLow4 w = false) ∧
    (w % 8 = 4 → roundUp .halfDownG3 w = false)) ∧
  normalValue .f32 (i2f .literalLow4 32 .unsigned .f32 0x04000007) = 2 ^ 26 ∧
  normalValue .f32 (i2f .halfDownG3 32 .unsigned .f32 0x04000007) = 2 ^ 26 + 8

/-- R87, R88 (keeping the leading 1 is the spec's decision D12): the increment, exactly when the carry happens, what
it does to exponent and significand, the re-check for infinity, and the power of two that results. -/
def Obligations.IncrementAndCarry : Prop :=
  ∀ (r : RoundRule) (F : FloatFormat) (w e : Nat) (s : Bool), 2 ^ (F.sigBits + 3) ≤ w → w < 2 ^ (F.sigBits + 4) →
    let kept := keptRounded r w
    (roundUp r w = true → kept = w / 8 + 1 ∧ kept = (w + 8) / 8) ∧
    (roundUp r w = false → kept = w / 8) ∧
    2 ^ F.sigBits ≤ kept ∧ kept ≤ 2 ^ (F.sigBits + 1) ∧
    (carryOut F kept = true ↔ w / 8 = 2 ^ (F.sigBits + 1) - 1 ∧ roundUp r w = true) ∧
    (carryOut F kept = true → exponentAfter F e kept = e + 1 ∧ fracOf F kept = 0) ∧
    (carryOut F kept = false → exponentAfter F e kept = e ∧ fracOf F kept = kept - 2 ^ F.sigBits) ∧
    (F.emax ≤ exponentAfter F e kept →
      unpack F (packRounded F s (exponentAfter F e kept) kept) = ⟨s, BitVec.allOnes _, 0⟩) ∧
    (carryOut F kept = true → e + 1 < F.emax →
      normalValue F (packRounded F s (exponentAfter F e kept) kept) =
        (if s then -1 else 1) * (2 : ℚ) ^ ((e : ℤ) + 1 - (F.bias : ℤ)))

/-! ## Integer to floating point (spec/41_int_to_fp.md) -/

/-- R61 (its last sentence is the spec's derivation from R90): 0 gives positive zero, the all-zero vector; no other
operand gives a zero of either sign. -/
def Obligations.ZeroOperandGivesPositiveZero : Prop :=
  ∀ (r : RoundRule) (W : Nat) (sg : Signedness) (F : FloatFormat) (x : BitVec W), InScopeWidth W →
    (x = 0 → i2f r W sg F x = 0 ∧ unpack F (i2f r W sg F x) = ⟨false, 0, 0⟩) ∧
    (x ≠ 0 → i2f r W sg F x ≠ 0 ∧ i2f r W sg F x ≠ F.signMask)

/-- R90 (a), (b), (d): a nonzero operand gives its own sign and an exponent from BIAS to BIAS + W, below EMAX; so no
infinity, NaN, subnormal or zero. -/
def Obligations.NonzeroResultIsNormal : Prop :=
  ∀ (r : RoundRule) (W : Nat) (sg : Signedness) (F : FloatFormat) (x : BitVec W), InScopeWidth W → x ≠ 0 →
    let p := unpack F (i2f r W sg F x)
    (p.sign = true ↔ intValue sg x < 0) ∧ F.bias ≤ p.exp.toNat ∧ p.exp.toNat ≤ F.bias + W ∧ p.exp.toNat < F.emax ∧
    classify F (i2f r W sg F x) = .normal (normalValue F (i2f r W sg F x))

/-- R60 to R71: each of the eight operations, in every state and under either ROUND_RULE, is answered with the
operand rounded by less than one unit of its lowest kept bit, and with the operand itself when it converts exactly. -/
def Obligations.IntToFloatAnswersWithinUnit : Prop :=
  ∀ (s : State) (d : Bool) (v : Word),
    AnswersFloat (.i2fU32F32 d v) s .f32 (RoundedWithinUnit .f32 (intValue .unsigned (v.setWidth 32))) ∧
    AnswersFloat (.i2fU32F64 d v) s .f64 (RoundedWithinUnit .f64 (intValue .unsigned (v.setWidth 32))) ∧
    AnswersFloat (.i2fU64F32 d v) s .f32 (RoundedWithinUnit .f32 (intValue .unsigned v)) ∧
    AnswersFloat (.i2fU64F64 d v) s .f64 (RoundedWithinUnit .f64 (intValue .unsigned v)) ∧
    AnswersFloat (.i2fS32F32 d v) s .f32 (RoundedWithinUnit .f32 (intValue .signed (v.setWidth 32))) ∧
    AnswersFloat (.i2fS32F64 d v) s .f64 (RoundedWithinUnit .f64 (intValue .signed (v.setWidth 32))) ∧
    AnswersFloat (.i2fS64F32 d v) s .f32 (RoundedWithinUnit .f32 (intValue .signed v)) ∧
    AnswersFloat (.i2fS64F64 d v) s .f64 (RoundedWithinUnit .f64 (intValue .signed v))

/-- R86, R90 (e): under HALF_DOWN_G3 each of the eight operations is answered with the nearest value of the format,
exact ties toward zero. -/
def Obligations.IntToFloatNearestTiesTowardZero : Prop :=
  ∀ (s : State) (d : Bool) (v : Word), s.config.roundRule = .halfDownG3 →
    AnswersFloat (.i2fU32F32 d v) s .f32 (NearestTiesTowardZero .f32 (intValue .unsigned (v.setWidth 32))) ∧
    AnswersFloat (.i2fU32F64 d v) s .f64 (NearestTiesTowardZero .f64 (intValue .unsigned (v.setWidth 32))) ∧
    AnswersFloat (.i2fU64F32 d v) s .f32 (NearestTiesTowardZero .f32 (intValue .unsigned v)) ∧
    AnswersFloat (.i2fU64F64 d v) s .f64 (NearestTiesTowardZero .f64 (intValue .unsigned v)) ∧
    AnswersFloat (.i2fS32F32 d v) s .f32 (NearestTiesTowardZero .f32 (intValue .signed (v.setWidth 32))) ∧
    AnswersFloat (.i2fS32F64 d v) s .f64 (NearestTiesTowardZero .f64 (intValue .signed (v.setWidth 32))) ∧
    AnswersFloat (.i2fS64F32 d v) s .f32 (NearestTiesTowardZero .f32 (intValue .signed v)) ∧
    AnswersFloat (.i2fS64F64 d v) s .f64 (NearestTiesTowardZero .f64 (intValue .signed v))

/-- R65, R69: a 32-bit integer to F64 is always exact, whatever ROUND_RULE is. -/
def Obligations.Int32ToFloat64IsExact : Prop :=
  ∀ (s : State) (d : Bool) (v : Word),
    AnswersFloat (.i2fU32F64 d v) s .f64 (fun b =>
      (v.setWidth 32 = 0 → b = 0) ∧
      (v.setWidth 32 ≠ 0 → classify .f64 b = .normal (intValue .unsigned (v.setWidth 32) : ℚ))) ∧
    AnswersFloat (.i2fS32F64 d v) s .f64 (fun b =>
      (v.setWidth 32 = 0 → b = 0) ∧
      (v.setWidth 32 ≠ 0 → classify .f64 b = .normal (intValue .signed (v.setWidth 32) : ℚ)))

/-- R90 (e): under HALF_DOWN_G3 the result's magnitude is the floor of the quotient by the unit, or one more exactly
when the fraction exceeds 1/2. -/
def Obligations.HalfDownFloorForm : Prop :=
  ∀ (W : Nat) (sg : Signedness) (F : FloatFormat) (x : BitVec W), InScopeWidth W → x ≠ 0 →
    let i := intValue sg x
    let q := |(i : ℚ)| / unitOf F i
    |normalValue F (i2f .halfDownG3 W sg F x)| =
      (if q - ⌊q⌋ ≤ 1 / 2 then (⌊q⌋ : ℚ) else (⌊q⌋ : ℚ) + 1) * unitOf F i

/-- R86: under LITERAL_LOW4 the magnitude rounds up exactly when the lowest kept bit is 1 and something is
discarded. -/
def Obligations.LiteralLow4Form : Prop :=
  ∀ (W : Nat) (sg : Signedness) (F : FloatFormat) (x : BitVec W), InScopeWidth W → x ≠ 0 →
    let i := intValue sg x
    let q := |(i : ℚ)| / unitOf F i
    |normalValue F (i2f .literalLow4 W sg F x)| =
      (if ⌊q⌋ % 2 = 1 ∧ q ≠ ⌊q⌋ then (⌊q⌋ : ℚ) + 1 else (⌊q⌋ : ℚ)) * unitOf F i

/-- R90 (f): the engine keeps the sign and is monotonic in the magnitude, for either sign, as a pattern; so the
conversion is monotonic in an unsigned operand as a pattern, and in an operand of either signedness as a value. The
value of a pattern is R48's (log 3). -/
def Obligations.IntToFloatIsMonotonic : Prop :=
  ∀ (r : RoundRule) (W : Nat) (F : FloatFormat), InScopeWidth W →
    (∀ (s : Bool) (m m' : Nat), 1 ≤ m → m ≤ m' → m' < 2 ^ W →
      (unpack F (normRound r F W s m)).sign = s ∧ (unpack F (normRound r F W s m')).sign = s ∧
      (normRound r F W s m).toNat ≤ (normRound r F W s m').toNat) ∧
    (∀ x y : BitVec W, x.toNat ≤ y.toNat → (i2f r W .unsigned F x).toNat ≤ (i2f r W .unsigned F y).toNat) ∧
    (∀ (sg : Signedness) (x y : BitVec W), intValue sg x ≤ intValue sg y →
      ∃ v v', valueOf F (i2f r W sg F x) = some v ∧ valueOf F (i2f r W sg F y) = some v' ∧ v ≤ v')

/-- R63: the rounding of a negative operand, the most negative one too, is the mirror image of that of its magnitude,
an unsigned operand (R51); an operand that is not negative converts as its unsigned reading; and a signed operand and
its negation mirror each other. -/
def Obligations.NegativeOperandMirrorsPositive : Prop :=
  ∀ (r : RoundRule) (W : Nat) (F : FloatFormat) (x : BitVec W), InScopeWidth W →
    (x.toInt < 0 → i2f r W .signed F x = i2f r W .unsigned F (-x) ^^^ F.signMask) ∧
    (0 ≤ x.toInt → i2f r W .signed F x = i2f r W .unsigned F x) ∧
    (0 < x.toInt → i2f r W .signed F (-x) = i2f r W .signed F x ^^^ F.signMask)

/-! ## Floating point to integer (spec/43_fp_to_int.md) -/

/-- R102, R121: an exponent below BIAS gives 0 for either sign and signedness; zeros and subnormals are among them. -/
def Obligations.MagnitudeBelowOneGivesZero : Prop :=
  ∀ (F : FloatFormat) (W : Nat) (sg : Signedness) (b : BitVec F.total),
    ((unpack F b).exp.toNat < F.bias → f2i F W sg b = 0) ∧
    ((unpack F b).exp = 0 → f2i F W sg b = 0) ∧
    (∀ v, classify F b = .normal v → |v| < 1 → f2i F W sg b = 0)

/-- R104: u >= W saturates by the sign; infinities and NaNs are among those patterns. -/
def Obligations.ExponentSaturation : Prop :=
  ∀ (F : FloatFormat) (W : Nat) (sg : Signedness) (b : BitVec F.total), InScopeWidth W →
    (F.bias + W ≤ (unpack F b).exp.toNat →
      f2i F W sg b = (match sg, (unpack F b).sign with
        | .unsigned, false => BitVec.allOnes W
        | .unsigned, true => 0
        | .signed, false => BitVec.ofNat W (2 ^ (W - 1) - 1)
        | .signed, true => BitVec.ofNat W (2 ^ (W - 1)))) ∧
    ((unpack F b).exp.toNat = F.emax → F.bias + W ≤ (unpack F b).exp.toNat) ∧
    (∀ v, classify F b = .normal v → (2 : ℚ) ^ W ≤ |v| → F.bias + W ≤ (unpack F b).exp.toNat)

/-- R105: the shift, truncating to the right and exact to the left; the magnitude is the floor of the value and fits
W bits. -/
def Obligations.ShiftTruncatesTowardZero : Prop :=
  ∀ (F : FloatFormat) (W : Nat) (b : BitVec F.total),
    let p := unpack F b
    let u := unbiasedExp F p.exp.toNat
    let sig := sigWithImplicit F p.frac
    F.bias ≤ p.exp.toNat → u < W →
      (u < F.sigBits → magnitude F u sig = sig / 2 ^ (F.sigBits - u)) ∧
      (F.sigBits ≤ u → magnitude F u sig = sig * 2 ^ (u - F.sigBits)) ∧
      (magnitude F u sig : ℤ) = ⌊|normalValue F b|⌋ ∧
      2 ^ u ≤ magnitude F u sig ∧ magnitude F u sig < 2 ^ (u + 1) ∧ 2 ^ (u + 1) ≤ 2 ^ W ∧
      (F = .f64 → W = 32 → u < F.sigBits) ∧
      (F = .f32 → W = 64 → u - F.sigBits ≤ 40)

/-- R106 (the bands are the spec's decisions D13, D14): the sign and the range clamp; the three bands it changes, and
nothing else. -/
def Obligations.ClampBands : Prop :=
  ∀ (F : FloatFormat) (W : Nat) (sg : Signedness) (b : BitVec F.total), InScopeWidth W →
    let p := unpack F b
    let u := unbiasedExp F p.exp.toNat
    let mag := magnitude F u (sigWithImplicit F p.frac)
    let r := f2i F W sg b
    F.bias ≤ p.exp.toNat → u < W →
      (sg = .signed → p.sign = false → u = W - 1 → intValue sg r = 2 ^ (W - 1) - 1) ∧
      (sg = .signed → p.sign = true → u = W - 1 → 2 ^ (W - 1) < mag → intValue sg r = -2 ^ (W - 1)) ∧
      (sg = .unsigned → p.sign = true → intValue sg r = 0) ∧
      (sg = .signed → u < W - 1 → intValue sg r = if p.sign then -(mag : ℤ) else mag) ∧
      (sg = .signed → p.sign = true → mag = 2 ^ (W - 1) → intValue sg r = -(mag : ℤ)) ∧
      (sg = .unsigned → p.sign = false → intValue sg r = mag)

/-- R109 to R117: each of the eight operations, in every state, is answered with the operand truncated toward zero and
saturated to the destination, NaNs and infinities by their sign (the spec's decisions D13, D14, D15). -/
def Obligations.FloatToIntAnswersTruncatedSaturated : Prop :=
  ∀ (s : State) (d : Bool) (v : Word),
    AnswersInt (.f2iF32U32 d v) s 32 (TruncatedSaturated .f32 32 .unsigned (v.setWidth 32)) ∧
    AnswersInt (.f2iF64U32 d v) s 32 (TruncatedSaturated .f64 32 .unsigned v) ∧
    AnswersInt (.f2iF32U64 d v) s 64 (TruncatedSaturated .f32 64 .unsigned (v.setWidth 32)) ∧
    AnswersInt (.f2iF64U64 d v) s 64 (TruncatedSaturated .f64 64 .unsigned v) ∧
    AnswersInt (.f2iF32S32 d v) s 32 (TruncatedSaturated .f32 32 .signed (v.setWidth 32)) ∧
    AnswersInt (.f2iF64S32 d v) s 32 (TruncatedSaturated .f64 32 .signed v) ∧
    AnswersInt (.f2iF32S64 d v) s 64 (TruncatedSaturated .f32 64 .signed (v.setWidth 32)) ∧
    AnswersInt (.f2iF64S64 d v) s 64 (TruncatedSaturated .f64 64 .signed v)

/-- R117 (c): an integer converted to a float and back, to any destination, is that float's integer value saturated to
the destination; the integer itself, saturated, when it converts exactly. -/
def Obligations.RoundTripIsSaturated : Prop :=
  ∀ (r : RoundRule) (W W' : Nat) (sg sg' : Signedness) (F : FloatFormat) (x : BitVec W),
    InScopeWidth W → InScopeWidth W' →
    let b := i2f r W sg F x
    let y := intValue sg' (f2i F W' sg' b)
    (x = 0 → y = 0) ∧
    (x ≠ 0 → ∃ z : ℤ, classify F b = .normal (z : ℚ) ∧ y = max (imin W' sg') (min z (imax W' sg')) ∧
      (ConvertsExactly F (intValue sg x) → z = intValue sg x))

/-! ## Diagnostics (spec/60_exceptions.md) -/

/-- R128 (the field list is the spec's decision D20; log 8, log 14): what DBG carries after an integer to float
request with diag = 1, field by field. -/
def Obligations.DebugFieldsOfIntToFloat : Prop :=
  ∀ (s : State) (op : BitVec 4) (value : Word), opDir op = .intToFloat →
    let F := opFormat op
    let M := F.sigBits
    let x := intValue (opSgn op) (value.setWidth (opIntWidth op))
    ∃ t, step (s.present (mkRequest true op value)) = .next t ∧ t.dbg.valid = true ∧
      let f := t.dbg.fields
      (f.isZero = true ↔ x = 0) ∧
      (x ≠ 0 →
        (f.s = true ↔ x < 0) ∧ f.m = x.natAbs ∧
        1 ≤ f.n ∧ 2 ^ (f.n - 1) ≤ f.m ∧ f.m < 2 ^ f.n ∧ f.e = F.bias + f.n - 1 ∧
        (f.shiftLeft = true ↔ f.n < M + 4) ∧
        (f.shiftLeft = true → f.shiftAmt = M + 4 - f.n ∧ f.sticky = false ∧ f.w = f.m * 2 ^ f.shiftAmt) ∧
        (f.shiftLeft = false → f.shiftAmt = f.n - (M + 4) ∧ (f.sticky = true ↔ ¬ 2 ^ f.shiftAmt ∣ f.m) ∧
          f.w = (f.m / 2 ^ f.shiftAmt) ||| f.sticky.toNat) ∧
        f.up = roundUp s.config.roundRule f.w ∧
        (f.carry = true ↔ f.w / 8 + f.up.toNat = 2 ^ (M + 1)) ∧
        f.eFinal = f.e + f.carry.toNat ∧ f.frac = (f.w / 8 + f.up.toNat) % 2 ^ M ∧
        t.res.toNat = f.s.toNat * 2 ^ (F.total - 1) + f.eFinal * 2 ^ M + f.frac)

/-- R128 (the field list is the spec's decision D20; log 8, log 14): what DBG carries after a float to integer request
with diag = 1, field by field. -/
def Obligations.DebugFieldsOfFloatToInt : Prop :=
  ∀ (s : State) (op : BitVec 4) (value : Word), opDir op = .floatToInt →
    let F := opFormat op
    let M := F.sigBits
    let W := opIntWidth op
    let b := value.setWidth F.total
    ∃ t, step (s.present (mkRequest true op value)) = .next t ∧ t.dbg.valid = true ∧
      let f := t.dbg.fields
      f.s = b.getLsbD (F.total - 1) ∧ f.e = (b.extractLsb' M F.expBits).toNat ∧
      f.sig = 2 ^ M + (b.extractLsb' 0 M).toNat ∧ (f.belowOne = true ↔ f.e < F.bias) ∧
      (f.belowOne = true → t.res = 0) ∧
      (f.belowOne = false →
        f.u + F.bias = f.e ∧ (f.saturated = true ↔ W ≤ f.u) ∧
        (f.saturated = false →
          (f.shiftLeft = true ↔ M ≤ f.u) ∧
          (f.shiftLeft = true → f.shiftAmt = f.u - M ∧ f.mag = f.sig * 2 ^ f.shiftAmt) ∧
          (f.shiftLeft = false → f.shiftAmt = M - f.u ∧ f.mag = f.sig / 2 ^ f.shiftAmt) ∧
          (f.clamped = true ↔
            (if f.s then -(f.mag : ℤ) else f.mag) < imin W (opSgn op) ∨
            imax W (opSgn op) < (if f.s then -(f.mag : ℤ) else f.mag))))

/-- spec/10_state.md R14 (the spec's decision D24; log 14): the minimum widths hold every intermediate value that DBG
names as meaningful. -/
def Obligations.IntermediatesFitMinimumWidths : Prop :=
  ∀ (s : State) (op : BitVec 4) (value : Word),
    let F := opFormat op
    let W := opIntWidth op
    ∃ t, step (s.present (mkRequest true op value)) = .next t ∧
      let f := t.dbg.fields
      (opDir op = .intToFloat → f.isZero = false →
        f.m < 2 ^ W ∧ f.n < 2 ^ 7 ∧ f.e < 2 ^ (F.expBits + 1) ∧ f.eFinal < 2 ^ (F.expBits + 1) ∧
        f.w < 2 ^ (F.sigBits + 4) ∧ f.w / 8 + f.up.toNat < 2 ^ (F.sigBits + 2) ∧ f.frac < 2 ^ F.sigBits) ∧
      (opDir op = .floatToInt →
        f.e < 2 ^ F.expBits ∧ f.sig < 2 ^ (F.sigBits + 1) ∧
        (f.belowOne = false → f.u < 2 ^ F.expBits ∧
          (f.saturated = false → f.mag < 2 ^ max W (F.sigBits + 1) ∧ f.mag < 2 ^ W)))

/-! ## Several instances (spec/20_memory.md R24, spec/60_exceptions.md R131, spec/70_reset_and_hazards.md R146) -/

/-- R24, R131, R146: whatever requests are presented to the blocks of a system, in any order, each is answered with
CONVERT of itself. That a system is a list of blocks served one request at a time is the model's choice (logs 5, 15). -/
def Obligations.EveryScheduleGivesConvert : Prop :=
  ∀ (sys : System) (sched : List (Nat × Request)), (∀ p ∈ sched, p.1 < sys.numBlocks) →
    ∃ vs sys', sys.serve sched = some (vs, sys') ∧ sys'.numBlocks = sys.numBlocks ∧ vs.length = sched.length ∧
      ∀ (j k : Nat) (r : Request) (s : State), sched[j]? = some (k, r) → sys.blocks[k]? = some s →
        vs[j]? = some (convert s.config.roundRule r)

/-- R131, R146 (the spec's decision D22; logs 5, 15): the instances share nothing: a block that is presented nothing
is left as it was. -/
def Obligations.UnaddressedBlocksUnchanged : Prop :=
  ∀ (sys sys' : System) (sched : List (Nat × Request)) (vs : List Word), sys.serve sched = some (vs, sys') →
    ∀ k, (∀ p ∈ sched, p.1 ≠ k) → sys'.blocks[k]? = sys.blocks[k]?

/-- R24, R146 (the spec's decision D22): in a well-formed system the results are the same whichever instances serve the
requests, spread over several or all on one; and serving keeps the system well formed. That all instances have one
ROUND_RULE is the model's choice (log 17), and so is the list of blocks (logs 5, 15). -/
def Obligations.ServingInstanceDoesNotMatter : Prop :=
  ∀ (sys : System) (sched sched' : List (Nat × Request)), sys.wf = true →
    (∀ p ∈ sched, p.1 < sys.numBlocks) → (∀ p ∈ sched', p.1 < sys.numBlocks) →
    sched.map Prod.snd = sched'.map Prod.snd →
    ∃ vs sys₁ sys₂, sys.serve sched = some (vs, sys₁) ∧ sys.serve sched' = some (vs, sys₂) ∧
      sys₁.wf = true ∧ sys₂.wf = true
end

