-- ==== Sys2Proof/Laws/Engine.lean ====
section
/-! SUPPORT. What the shared pieces of the two conversions do, said once: packing, the length of a magnitude, the
alignment, the guard field, the engine on a nonzero magnitude, and the three paths of F2I. Later proofs cite these and
unfold no engine. -/

namespace Sys2Proof.Machine

/-- R52: the length of a magnitude is its number of bits. -/
theorem payloadLen_eq_size {W m : Nat} (h0 : m ≠ 0) (h : m < 2 ^ W) : payloadLen W m = Nat.size m := by
  have h1 : Nat.log2 m < W := (Nat.log2_lt h0).2 h
  have h2 : Nat.size m = Nat.log2 m + 1 := by
    apply le_antisymm
    · exact Nat.size_le.2 Nat.lt_log2_self
    · exact Nat.lt_size.2 (Nat.log2_self_le h0)
  simp only [payloadLen, clz, h0, if_false]; omega

theorem size_bounds {m : Nat} (h0 : m ≠ 0) : 1 ≤ Nat.size m ∧ 2 ^ (Nat.size m - 1) ≤ m ∧ m < 2 ^ Nat.size m := by
  have h1 : 0 < Nat.size m := Nat.size_pos.2 (Nat.pos_of_ne_zero h0)
  refine ⟨h1, ?_, Nat.lt_size_self m⟩
  exact Nat.lt_size.1 (by omega)

/-- OR of a bit into bit 0. -/
theorem or_bool_div_two (a : Nat) (b : Bool) : (a ||| b.toNat) / 2 = a / 2 := by
  have : (a ||| b.toNat) >>> 1 = a >>> 1 := by
    rw [Nat.shiftRight_or_distrib]; cases b <;> simp
  simpa [Nat.shiftRight_eq_div_pow] using this

theorem or_bool_mod_two (a : Nat) (b : Bool) : (a ||| b.toNat) % 2 = max (a % 2) b.toNat := by
  have h := Nat.or_mod_two_pow (a := a) (b := b.toNat) (n := 1)
  simp only [pow_one] at h
  rw [h]
  rcases Nat.mod_two_eq_zero_or_one a with h' | h' <;> cases b <;> rw [h'] <;> rfl

theorem workW_eq (F : FloatFormat) : F.workW = F.sigBits + 4 := rfl

/-- R83. -/
theorem aligned_left {F : FloatFormat} {n m : Nat} (h : n < F.sigBits + 4) :
    aligned F n m = m * 2 ^ (F.sigBits + 4 - n) := by
  have : alignsLeft F n = true := by simp [alignsLeft, workW_eq, h]
  simp [aligned, alignAmount, this, workW_eq, Nat.shiftLeft_eq]

/-- R84. -/
theorem aligned_right {F : FloatFormat} {n m : Nat} (h : F.sigBits + 4 ≤ n) :
    aligned F n m = (m / 2 ^ (n - (F.sigBits + 4))) ||| (decide (m % 2 ^ (n - (F.sigBits + 4)) ≠ 0)).toNat := by
  have : alignsLeft F n = false := decide_eq_false (by rw [workW_eq]; omega)
  simp [aligned, alignAmount, alignSticky, stickyOut, this, workW_eq, Nat.shiftRight_eq_div_pow]

/-- R85: the leading 1 stands at bit M+3. -/
theorem aligned_bounds {F : FloatFormat} {n m : Nat} (hn : 1 ≤ n) (h1 : 2 ^ (n - 1) ≤ m) (h2 : m < 2 ^ n) :
    2 ^ (F.sigBits + 3) ≤ aligned F n m ∧ aligned F n m < 2 ^ (F.sigBits + 4) := by
  rcases Nat.lt_or_ge n (F.sigBits + 4) with h | h
  · rw [aligned_left h]
    constructor
    · calc 2 ^ (F.sigBits + 3) = 2 ^ (n - 1) * 2 ^ (F.sigBits + 4 - n) := by rw [← pow_add]; congr 1; omega
        _ ≤ _ := Nat.mul_le_mul_right _ h1
    · calc m * 2 ^ (F.sigBits + 4 - n) < 2 ^ n * 2 ^ (F.sigBits + 4 - n) := Nat.mul_lt_mul_of_pos_right h2 (by positivity)
        _ = _ := by rw [← pow_add]; congr 1; omega
  · rw [aligned_right h]
    have ha : 2 ^ (F.sigBits + 3) ≤ m / 2 ^ (n - (F.sigBits + 4)) := by
      rw [Nat.le_div_iff_mul_le (by positivity), ← pow_add]
      refine le_trans (Nat.pow_le_pow_right (by decide) ?_) h1; omega
    have hb : m / 2 ^ (n - (F.sigBits + 4)) < 2 ^ (F.sigBits + 4) := by
      rw [Nat.div_lt_iff_lt_mul (by positivity), ← pow_add]
      refine lt_of_lt_of_le h2 (Nat.pow_le_pow_right (by decide) ?_); omega
    exact ⟨le_trans ha Nat.left_le_or, Nat.or_lt_two_pow hb (lt_of_le_of_lt (Bool.toNat_le _) (Nat.one_lt_two_pow (by omega)))⟩

/-- R85: the mask changes nothing. -/
theorem workReg_eq {F : FloatFormat} {n m : Nat} (hn : 1 ≤ n) (h1 : 2 ^ (n - 1) ≤ m) (h2 : m < 2 ^ n) :
    workReg F n m = aligned F n m := Nat.mod_eq_of_lt (aligned_bounds hn h1 h2).2

/-- What the guard field says, for a magnitude of more than M+1 bits: D = 2^(n-M-1). -/
theorem aligned_spec {F : FloatFormat} {n m : Nat} (hn : F.sigBits + 1 ≤ n) :
    let D := 2 ^ (n - (F.sigBits + 1))
    aligned F n m / 8 = m / D ∧ (4 < aligned F n m % 8 ↔ D < 2 * (m % D)) ∧ (aligned F n m % 8 = 0 ↔ m % D = 0) := by
  intro D
  rcases Nat.lt_or_ge n (F.sigBits + 4) with h | h
  · rw [aligned_left h]
    obtain ⟨j, hj⟩ : ∃ j, n = F.sigBits + 1 + j := ⟨n - (F.sigBits + 1), by omega⟩
    subst hj
    have hj3 : j < 3 := by omega
    have hD : D = 2 ^ j := by simp [D]
    have e : F.sigBits + 4 - (F.sigBits + 1 + j) = 3 - j := by omega
    rw [e, hD]
    interval_cases j <;> norm_num <;> omega
  · rw [aligned_right h]
    obtain ⟨k, hk⟩ : ∃ k, n = F.sigBits + 4 + k := ⟨n - (F.sigBits + 4), by omega⟩
    subst hk
    have e : F.sigBits + 4 + k - (F.sigBits + 4) = k := by omega
    have hD : D = 2 ^ k * 8 := by
      simp only [D]; rw [show F.sigBits + 4 + k - (F.sigBits + 1) = k + 3 by omega, pow_add]; rfl
    rw [e, hD]
    set K := 2 ^ k with hK
    have hKpos : 0 < K := by positivity
    set b := decide (m % K ≠ 0) with hb
    set a := m / K with ha
    have d2 := or_bool_div_two a b
    have m2 := or_bool_mod_two a b
    set w := a ||| b.toNat with hw
    have hm : m = K * a + m % K := by rw [ha]; exact (Nat.div_add_mod m K).symm
    have hlt : m % K < K := Nat.mod_lt _ hKpos
    have hdd : m / (K * 8) = a / 8 := by rw [ha, Nat.div_div_eq_div_mul]
    have hmm : m % (K * 8) = K * (a % 8) + m % K := by
      have := Nat.mod_mul (x := m) (a := K) (b := 8)
      rw [this, ← ha]; ring
    rw [hdd, hmm]
    have hb' : b.toNat = if m % K = 0 then 0 else 1 := by
      by_cases h : m % K = 0 <;> simp [hb, h]
    rw [hb'] at m2
    have hc : a % 8 < 8 := Nat.mod_lt _ (by decide)
    have hw8 : w / 8 = a / 8 := by omega
    refine ⟨hw8, ?_, ?_⟩
    · by_cases h0 : m % K = 0
      · simp only [h0, if_true] at m2 ⊢
        have : w % 8 = a % 8 := by omega
        rw [this]
        constructor
        · intro h; nlinarith
        · intro h; by_contra hh; nlinarith
      · simp only [h0, if_false] at m2
        have h5 : 4 < w % 8 ↔ 4 ≤ a % 8 := by omega
        rw [h5]
        constructor
        · intro h; nlinarith [Nat.pos_of_ne_zero h0]
        · intro h; by_contra hh
          have : a % 8 ≤ 3 := by omega
          nlinarith
    · by_cases h0 : m % K = 0
      · simp only [h0, if_true] at m2 ⊢
        have : w % 8 = a % 8 := by omega
        rw [this]
        constructor
        · intro h; simp [h]
        · intro h
          rcases Nat.mul_eq_zero.1 (by simpa using h) with h | h <;> omega
      · simp only [h0, if_false] at m2
        constructor
        · intro h; omega
        · intro h; omega

/-- R46. -/
theorem unpack_fromParts {F : FloatFormat} (p : FloatParts F) : unpack F (fromParts F p) = p := by
  obtain ⟨s, e, f⟩ := p
  have hb : ∀ i, (fromParts F ⟨s, e, f⟩).getLsbD i =
      if i < F.sigBits then f.getLsbD i else if i - F.sigBits < F.expBits then e.getLsbD (i - F.sigBits)
        else (decide (i - F.sigBits - F.expBits = 0) && s) := by
    intro i
    have h : (fromParts F ⟨s, e, f⟩).getLsbD i = (BitVec.ofBool s ++ e ++ f).getLsbD i := rfl
    rw [h, BitVec.getLsbD_append, BitVec.getLsbD_append, BitVec.getLsbD_ofBool]
  simp only [unpack, FloatParts.mk.injEq]
  refine ⟨?_, ?_, ?_⟩
  · rw [hb]; cases F <;> simp [FloatFormat.total, FloatFormat.sigBits, FloatFormat.expBits]
  · apply BitVec.eq_of_getLsbD_eq; intro i hi
    rw [BitVec.getLsbD_extractLsb', hb]
    simp [hi]
  · apply BitVec.eq_of_getLsbD_eq; intro i hi
    rw [BitVec.getLsbD_extractLsb', hb]
    simp [hi]

/-- R44. -/
theorem fromParts_toNat {F : FloatFormat} (p : FloatParts F) :
    (fromParts F p).toNat = p.sign.toNat * 2 ^ (F.total - 1) + p.exp.toNat * 2 ^ F.sigBits + p.frac.toNat := by
  obtain ⟨s, e, f⟩ := p
  have h : (fromParts F ⟨s, e, f⟩).toNat = (BitVec.ofBool s ++ e ++ f).toNat := rfl
  rw [h, BitVec.toNat_append, BitVec.toNat_append, ← Nat.shiftLeft_add_eq_or_of_lt f.isLt,
    ← Nat.shiftLeft_add_eq_or_of_lt e.isLt]
  simp only [Nat.shiftLeft_eq, BitVec.toNat_ofBool]
  have : F.total - 1 = F.expBits + F.sigBits := by simp only [FloatFormat.total]; omega
  rw [this, pow_add]; ring

/-- R87, R88: the kept significand after the increment. -/
theorem kept_bounds (r : RoundRule) {F : FloatFormat} {w : Nat} (h1 : 2 ^ (F.sigBits + 3) ≤ w) (h2 : w < 2 ^ (F.sigBits + 4)) :
    2 ^ F.sigBits ≤ keptRounded r w ∧ keptRounded r w ≤ 2 ^ (F.sigBits + 1) := by
  have : keptRounded r w = w / 8 + (roundUp r w).toNat := by simp [keptRounded, guardBits, Nat.shiftRight_eq_div_pow]
  rw [this]
  have := Bool.toNat_le (roundUp r w)
  simp only [pow_succ] at *
  omega

theorem bias_facts (F : FloatFormat) : 1 ≤ F.bias ∧ F.bias + 64 < F.emax ∧ F.emax < 2 ^ F.expBits := by
  cases F <;> decide

/-- The engine on a nonzero magnitude of an in-scope width: sign, exponent and significand field of its result
(R82, R87 to R89). -/
theorem normRound_parts (r : RoundRule) (F : FloatFormat) {W m : Nat} (s : Bool) (hW : W ≤ 64) (h0 : m ≠ 0) (h : m < 2 ^ W) :
    ∃ p : FloatParts F, normRound r F W s m = fromParts F p ∧ p.sign = s ∧
      let kept := keptRounded r (aligned F (Nat.size m) m)
      p.exp.toNat = F.bias + Nat.size m - 1 + (if kept = 2 ^ (F.sigBits + 1) then 1 else 0) ∧
      p.frac.toNat = if kept = 2 ^ (F.sigBits + 1) then 0 else kept - 2 ^ F.sigBits := by
  obtain ⟨hn, hl, hu⟩ := size_bounds h0
  have hsz : Nat.size m ≤ 64 := le_trans (Nat.size_le.2 h) hW
  obtain ⟨hb1, hb2, -⟩ := bias_facts F
  have hkb := kept_bounds r (aligned_bounds (F := F) hn hl hu).1 (aligned_bounds (F := F) hn hl hu).2
  simp only [normRound, payloadLen_eq_size h0 h, initialExp, workReg_eq hn hl hu]
  have h1 : ¬ F.emax ≤ F.bias + Nat.size m - 1 := by omega
  simp only [h1, if_false, packRounded]
  set kept := keptRounded r (aligned F (Nat.size m) m) with hk
  have h2 : exponentAfter F (F.bias + Nat.size m - 1) kept = F.bias + Nat.size m - 1 + (if kept = 2 ^ (F.sigBits + 1) then 1 else 0) := by
    simp only [exponentAfter, carryOut, decide_eq_true_eq]; split <;> rfl
  have h3 : ¬ F.emax ≤ exponentAfter F (F.bias + Nat.size m - 1) kept := by rw [h2]; split <;> omega
  rw [dif_neg h3]
  refine ⟨_, rfl, rfl, ?_, ?_⟩
  · simpa using h2
  · simp only [BitVec.toNat_ofNatLT, fracOf]
    split
    · next h => rw [h, pow_succ]; simp
    · next h =>
      have : kept < 2 ^ F.sigBits * 2 := by rw [← pow_succ]; omega
      rw [Nat.mod_eq_sub_mod hkb.1, Nat.mod_eq_of_lt (by omega)]

theorem normalValue_fromParts {F : FloatFormat} (p : FloatParts F) : normalValue F (fromParts F p) =
    (if p.sign then -1 else 1) * (2 ^ F.sigBits + p.frac.toNat : ℚ) * (2 : ℚ) ^ ((p.exp.toNat : ℤ) - (F.bias : ℤ) - (F.sigBits : ℤ)) := by
  simp [normalValue, unpack_fromParts, sigWithImplicit]

/-- The value the engine returns: the kept significand at the weight of its lowest bit (R90). -/
theorem normalValue_normRound (r : RoundRule) (F : FloatFormat) {W m : Nat} (s : Bool) (hW : W ≤ 64) (h0 : m ≠ 0) (h : m < 2 ^ W) :
    normalValue F (normRound r F W s m) = (if s then -1 else 1) * (keptRounded r (aligned F (Nat.size m) m) : ℚ) *
      (2 : ℚ) ^ ((Nat.size m : ℤ) - F.sigBits - 1) := by
  obtain ⟨p, hp, hs, he, hf⟩ := normRound_parts r F s hW h0 h
  obtain ⟨hn, hl, hu⟩ := size_bounds h0
  have hb := (bias_facts F).1
  have hkb := kept_bounds r (aligned_bounds (F := F) hn hl hu).1 (aligned_bounds (F := F) hn hl hu).2
  rw [hp, normalValue_fromParts, hs, he, hf]
  set kept := keptRounded r (aligned F (Nat.size m) m) with hk
  by_cases hc : kept = 2 ^ (F.sigBits + 1)
  · simp only [hc, if_true]
    have e1 : ((F.bias + Nat.size m - 1 + 1 : ℕ) : ℤ) - (F.bias : ℤ) - (F.sigBits : ℤ) = 1 + ((Nat.size m : ℤ) - F.sigBits - 1) := by omega
    rw [e1, zpow_add₀ (by norm_num)]
    push_cast; ring
  · simp only [hc, if_false]
    have e1 : ((F.bias + Nat.size m - 1 + 0 : ℕ) : ℤ) - (F.bias : ℤ) - (F.sigBits : ℤ) = ((Nat.size m : ℤ) - F.sigBits - 1) := by omega
    rw [e1]
    push_cast [hkb.1]; ring

/-! ## The three paths of F2I (R102, R104, R106) -/

theorem f2i_of_below_bias {F : FloatFormat} {W : Nat} {sg : Signedness} {b : BitVec F.total}
    (h : (unpack F b).exp.toNat < F.bias) : f2i F W sg b = toBits W 0 := by
  simp [f2i, belowOne, h]

theorem f2i_of_saturated {F : FloatFormat} {W : Nat} {sg : Signedness} {b : BitVec F.total}
    (h : F.bias + W ≤ (unpack F b).exp.toNat) : f2i F W sg b = toBits W (extremeOf W sg (unpack F b).sign) := by
  have h1 : ¬ (unpack F b).exp.toNat < F.bias := by omega
  have h2 : W ≤ (unpack F b).exp.toNat - F.bias := by omega
  simp [f2i, belowOne, saturated, unbiasedExp, h1, h2]

theorem f2i_of_shifted {F : FloatFormat} {W : Nat} {sg : Signedness} {b : BitVec F.total}
    (h1 : F.bias ≤ (unpack F b).exp.toNat) (h2 : (unpack F b).exp.toNat < F.bias + W) :
    f2i F W sg b = toBits W (clamp (signedMag (unpack F b).sign
      (magnitude F ((unpack F b).exp.toNat - F.bias) (sigWithImplicit F (unpack F b).frac)))
      (imin W sg) (imax W sg)) := by
  have h3 : ¬ (unpack F b).exp.toNat < F.bias := by omega
  have h4 : ¬ W ≤ (unpack F b).exp.toNat - F.bias := by omega
  simp [f2i, belowOne, saturated, unbiasedExp, h3, h4]

end Sys2Proof.Machine
end

