-- ==== Sys2Proof/Laws/State.lean ====
section
/-! SUPPORT. One lemma per field of State per update, so that no later proof unfolds a record update. -/

namespace Sys2Proof.Machine

variable (s : State) (r : Request) (d : Bool) (v : Word) (t : DbgTrace) (n w : Nat)

@[simp] theorem State.present_req : (s.present r).req = r := rfl
@[simp] theorem State.present_res : (s.present r).res = s.res := rfl
@[simp] theorem State.present_dbg : (s.present r).dbg = s.dbg := rfl
@[simp] theorem State.present_config : (s.present r).config = s.config := rfl
@[simp] theorem State.present_freeCount : (s.present r).freeCount = s.freeCount := rfl

@[simp] theorem State.drive_req : (s.drive d v t).req = s.req := rfl
@[simp] theorem State.drive_res : (s.drive d v t).res = v := rfl
@[simp] theorem State.drive_dbg : (s.drive d v t).dbg = dbgPort d t (Config.freeDbg s.freeCount) := rfl
@[simp] theorem State.drive_config : (s.drive d v t).config = s.config := rfl
@[simp] theorem State.drive_freeCount : (s.drive d v t).freeCount = s.freeCount + 1 := rfl

@[simp] theorem dbgPort_valid (free : DbgFields) : (dbgPort d t free).valid = d := rfl
@[simp] theorem dbgPort_fields_of_diag (free : DbgFields) : (dbgPort true t free).fields = t.overlay free := rfl
@[simp] theorem dbgPort_fields_of_not_diag (free : DbgFields) : (dbgPort false t free).fields = free := rfl

@[simp] theorem State.withFetchWord_req : (s.withFetchWord n w).req = BitVec.ofNat 69 (w % 2 ^ n) := rfl
@[simp] theorem State.withFetchWord_config : (s.withFetchWord n w).config = s.config := rfl
@[simp] theorem State.withFetchWord_res : (s.withFetchWord n w).res = s.res := rfl
@[simp] theorem State.withFetchWord_dbg : (s.withFetchWord n w).dbg = s.dbg := rfl
@[simp] theorem State.withFetchWord_freeCount : (s.withFetchWord n w).freeCount = s.freeCount := rfl

end Sys2Proof.Machine
end

