-- ==== Sys2Proof/Laws/Ops.lean ====
section
/-! SUPPORT. What the shared operations and the 16 arms can do, said once: they answer, and the next state is the old
one with the output ports driven. Later proofs cite these and never unfold an arm. -/

namespace Sys2Proof.Machine

theorem runI2F_next {W : Nat} {sg : Signedness} {F : FloatFormat} {x : BitVec W} {d : Bool} {s : State} :
    runI2F W sg F x d s =
      .next (s.drive d (resultWord (i2f s.config.roundRule W sg F x)) (i2fTrace s.config.roundRule W sg F x)) := rfl

theorem runF2I_next {F : FloatFormat} {W : Nat} {sg : Signedness} {b : BitVec F.total} {d : Bool} {s : State} :
    runF2I F W sg b d s = .next (s.drive d (resultWord (f2i F W sg b)) (f2iTrace F W sg b)) := rfl

theorem drive_onlyPortsChange (s : State) (d : Bool) (v : Word) (t : DbgTrace) :
    OnlyPortsChange s (s.drive d v t) := ⟨rfl, rfl⟩

/-- The two readings of a 32-bit operand agree: a slice of `value`, and `value` cut to 32 bits (R32). -/
theorem operand32_eq_setWidth (v : Word) : operand32 v = v.setWidth 32 := by
  ext i hi; simp [operand32]

@[simp] theorem operand64_eq (v : Word) : operand64 v = v := rfl

@[simp] theorem resultWord_toNat {w : Nat} (h : w ≤ 64) (b : BitVec w) : (resultWord b).toNat = b.toNat := by
  simp only [resultWord, BitVec.toNat_setWidth]
  exact Nat.mod_eq_of_lt (lt_of_lt_of_le b.isLt (Nat.pow_le_pow_right (by decide) h))

/-- What a well-formed system is (R5, log 17). -/
theorem System.wf_iff (sys : System) :
    sys.wf = true ↔ 1 ≤ sys.numBlocks ∧ ∀ a ∈ sys.blocks, ∀ b ∈ sys.blocks, a.config = b.config := by
  simp [System.wf]

theorem valueOf_of_normal {F : FloatFormat} {b : BitVec F.total} {q : ℚ} (h : classify F b = .normal q) :
    valueOf F b = some q := by simp [valueOf, h]

theorem valueOf_of_zero {F : FloatFormat} {b : BitVec F.total} {z : Bool} (h : classify F b = .zero z) :
    valueOf F b = some 0 := by simp [valueOf, h]

variable (d : Bool) (v : Word) (s : State)

theorem exec_i2fU32F32 : exec (.i2fU32F32 d v) s = runI2F 32 .unsigned .f32 (operand32 v) d s := rfl
theorem exec_i2fU32F64 : exec (.i2fU32F64 d v) s = runI2F 32 .unsigned .f64 (operand32 v) d s := rfl
theorem exec_i2fU64F32 : exec (.i2fU64F32 d v) s = runI2F 64 .unsigned .f32 (operand64 v) d s := rfl
theorem exec_i2fU64F64 : exec (.i2fU64F64 d v) s = runI2F 64 .unsigned .f64 (operand64 v) d s := rfl
theorem exec_i2fS32F32 : exec (.i2fS32F32 d v) s = runI2F 32 .signed .f32 (operand32 v) d s := rfl
theorem exec_i2fS32F64 : exec (.i2fS32F64 d v) s = runI2F 32 .signed .f64 (operand32 v) d s := rfl
theorem exec_i2fS64F32 : exec (.i2fS64F32 d v) s = runI2F 64 .signed .f32 (operand64 v) d s := rfl
theorem exec_i2fS64F64 : exec (.i2fS64F64 d v) s = runI2F 64 .signed .f64 (operand64 v) d s := rfl
theorem exec_f2iF32U32 : exec (.f2iF32U32 d v) s = runF2I .f32 32 .unsigned (operand32 v) d s := rfl
theorem exec_f2iF64U32 : exec (.f2iF64U32 d v) s = runF2I .f64 32 .unsigned (operand64 v) d s := rfl
theorem exec_f2iF32U64 : exec (.f2iF32U64 d v) s = runF2I .f32 64 .unsigned (operand32 v) d s := rfl
theorem exec_f2iF64U64 : exec (.f2iF64U64 d v) s = runF2I .f64 64 .unsigned (operand64 v) d s := rfl
theorem exec_f2iF32S32 : exec (.f2iF32S32 d v) s = runF2I .f32 32 .signed (operand32 v) d s := rfl
theorem exec_f2iF64S32 : exec (.f2iF64S32 d v) s = runF2I .f64 32 .signed (operand64 v) d s := rfl
theorem exec_f2iF32S64 : exec (.f2iF32S64 d v) s = runF2I .f32 64 .signed (operand32 v) d s := rfl
theorem exec_f2iF64S64 : exec (.f2iF64S64 d v) s = runF2I .f64 64 .signed (operand64 v) d s := rfl

end Sys2Proof.Machine
end

