-- ==== Sys2Proof/Laws/PerInstr.lean ====
section
/-! SUPPORT. A fact about every instruction as syntax, one lemma per constructor: its request word carries its
operation code, flag and operand field where spec/30_encoding.md R30 puts them. -/

namespace Sys2Proof

/-- Each bit of a request word built from its parts (R30). -/
theorem mkRequest_getLsbD (d : Bool) (op : BitVec 4) (v : Word) (i : Nat) :
    (mkRequest d op v).getLsbD i =
      if i < 64 then v.getLsbD i else if i < 68 then op.getLsbD (i - 64) else (decide (i = 68) && d) := by
  have h : (mkRequest d op v).getLsbD i = (BitVec.ofBool d ++ op ++ v : BitVec (1 + 4 + 64)).getLsbD i := rfl
  rw [h, BitVec.getLsbD_append, BitVec.getLsbD_append, BitVec.getLsbD_ofBool]
  by_cases h1 : i < 64
  · simp only [h1, if_true]
  · by_cases h2 : i < 68
    · have h3 : i - 64 < 4 := by omega
      simp only [h1, h2, h3, if_true, if_false]
    · have h3 : ¬ i - 64 < 4 := by omega
      have h4 : (i - 64 - 4 = 0) = (i = 68) := by apply propext; omega
      simp only [h1, h2, h3, h4, if_false]

theorem reqOp_mkRequest (d : Bool) (op : BitVec 4) (v : Word) : reqOp (mkRequest d op v) = op := by
  apply BitVec.eq_of_getLsbD_eq
  intro i hi
  have h1 : ¬ 64 + i < 64 := by omega
  have h2 : 64 + i < 68 := by omega
  rw [reqOp, BitVec.getLsbD_extractLsb', mkRequest_getLsbD]
  simp [hi, h2]

theorem reqValue_mkRequest (d : Bool) (op : BitVec 4) (v : Word) : reqValue (mkRequest d op v) = v := by
  apply BitVec.eq_of_getLsbD_eq
  intro i hi
  rw [reqValue, BitVec.getLsbD_extractLsb', mkRequest_getLsbD]
  simp [hi]

theorem reqDiag_mkRequest (d : Bool) (op : BitVec 4) (v : Word) : reqDiag (mkRequest d op v) = d := by
  rw [reqDiag, mkRequest_getLsbD]
  simp

namespace Laws.FieldsOfEncoding

/-- The request word of `i` holds `i`'s operation code, flag and operand field, and `i` is well formed. -/
def Statement (i : Instr) : Prop :=
  reqOp (encode i) = i.opcode ∧ reqDiag (encode i) = i.diag ∧ reqValue (encode i) = i.value ∧ i.wf = true

theorem of_mkRequest {i : Instr} (h : i.wf = true) : Statement i :=
  ⟨reqOp_mkRequest _ _ _, reqDiag_mkRequest _ _ _, reqValue_mkRequest _ _ _, h⟩

theorem i2fU32F32 (d : Bool) (v : Word) : Statement (.i2fU32F32 d v) := of_mkRequest rfl
theorem i2fU32F64 (d : Bool) (v : Word) : Statement (.i2fU32F64 d v) := of_mkRequest rfl
theorem i2fU64F32 (d : Bool) (v : Word) : Statement (.i2fU64F32 d v) := of_mkRequest rfl
theorem i2fU64F64 (d : Bool) (v : Word) : Statement (.i2fU64F64 d v) := of_mkRequest rfl
theorem i2fS32F32 (d : Bool) (v : Word) : Statement (.i2fS32F32 d v) := of_mkRequest rfl
theorem i2fS32F64 (d : Bool) (v : Word) : Statement (.i2fS32F64 d v) := of_mkRequest rfl
theorem i2fS64F32 (d : Bool) (v : Word) : Statement (.i2fS64F32 d v) := of_mkRequest rfl
theorem i2fS64F64 (d : Bool) (v : Word) : Statement (.i2fS64F64 d v) := of_mkRequest rfl
theorem f2iF32U32 (d : Bool) (v : Word) : Statement (.f2iF32U32 d v) := of_mkRequest rfl
theorem f2iF64U32 (d : Bool) (v : Word) : Statement (.f2iF64U32 d v) := of_mkRequest rfl
theorem f2iF32U64 (d : Bool) (v : Word) : Statement (.f2iF32U64 d v) := of_mkRequest rfl
theorem f2iF64U64 (d : Bool) (v : Word) : Statement (.f2iF64U64 d v) := of_mkRequest rfl
theorem f2iF32S32 (d : Bool) (v : Word) : Statement (.f2iF32S32 d v) := of_mkRequest rfl
theorem f2iF64S32 (d : Bool) (v : Word) : Statement (.f2iF64S32 d v) := of_mkRequest rfl
theorem f2iF32S64 (d : Bool) (v : Word) : Statement (.f2iF32S64 d v) := of_mkRequest rfl
theorem f2iF64S64 (d : Bool) (v : Word) : Statement (.f2iF64S64 d v) := of_mkRequest rfl

end Laws.FieldsOfEncoding

end Sys2Proof
end

