-- ==== Sys2Proof/Tests/Slice0.lean ====
section
/-! SUPPORT. Small tests. Expected values are the spec's own: the rows of spec/30_encoding.md R34, the worked examples
and corner cases of spec/41_int_to_fp.md R64 to R71 and spec/43_fp_to_int.md R109 to R116, and spec/95_test_vectors.md.
The witnesses at the end show, for each statement with hypotheses, operands that meet them. -/

namespace Sys2Proof.Tests

open Sys2Proof.Machine

/-! ## Decoding: every row of R34, words laid out by R30 -/

theorem test_decode_bit_by_bit_i2f :
    decode (0b0#1 ++ 0b0100#4 ++ 0xFFFFFFFF#64 : BitVec (1 + 4 + 64)) = .i2fS32F32 false 0xFFFFFFFF := by decide
theorem test_decode_bit_by_bit_f2i :
    decode (0b1#1 ++ 0b1101#4 ++ 0xFFF8000000000001#64 : BitVec (1 + 4 + 64)) =
      .f2iF64S32 true 0xFFF8000000000001 := by decide

theorem test_decode_i2fU32F32 : decode 0x000000000001000003 = .i2fU32F32 false 0x01000003 := by decide
theorem test_decode_i2fU32F64 : decode 0x010000000001000003 = .i2fU32F64 false 0x01000003 := by decide
theorem test_decode_i2fU64F32 : decode 0x02FFFFFFFFFFFFFFFF = .i2fU64F32 false 0xFFFFFFFFFFFFFFFF := by decide
theorem test_decode_i2fU64F64 : decode 0x13FFFFFFFFFFFFFC01 = .i2fU64F64 true 0xFFFFFFFFFFFFFC01 := by decide
theorem test_decode_i2fS32F32 : decode 0x04DEADBEEFFFFFFFFF = .i2fS32F32 false 0xDEADBEEFFFFFFFFF := by decide
theorem test_decode_i2fS32F64 : decode 0x050000000080000000 = .i2fS32F64 false 0x80000000 := by decide
theorem test_decode_i2fS64F32 : decode 0x067FFFFFFFFFFFFFFF = .i2fS64F32 false 0x7FFFFFFFFFFFFFFF := by decide
theorem test_decode_i2fS64F64 : decode 0x178000000000000000 = .i2fS64F64 true 0x8000000000000000 := by decide
theorem test_decode_f2iF32U32 : decode 0x0800000000BFC00000 = .f2iF32U32 false 0xBFC00000 := by decide
theorem test_decode_f2iF64U32 : decode 0x0941E0000000000000 = .f2iF64U32 false 0x41E0000000000000 := by decide
theorem test_decode_f2iF32U64 : decode 0x0A000000007FC00000 = .f2iF32U64 false 0x7FC00000 := by decide
theorem test_decode_f2iF64U64 : decode 0x0B43F0000000000000 = .f2iF64U64 false 0x43F0000000000000 := by decide
theorem test_decode_f2iF32S32 : decode 0x1C00000000BFC00000 = .f2iF32S32 true 0xBFC00000 := by decide
theorem test_decode_f2iF64S32 : decode 0x0DFFF8000000000001 = .f2iF64S32 false 0xFFF8000000000001 := by decide
theorem test_decode_f2iF32S64 : decode 0x0E00000000BF800000 = .f2iF32S64 false 0xBF800000 := by decide
theorem test_decode_f2iF64S64 : decode 0x0FC1E0000000200000 = .f2iF64S64 false 0xC1E0000000200000 := by decide

/-- The match words of spec/opcode_table.json, op << 64 in 72 bits. -/
theorem test_table_word_of_last_row :
    decodeTableWord 72 0x0F0000000000000000 = some (.f2iF64S64 false 0) := by decide
theorem test_wide_number_rejected : decodeNat (2 ^ 69) = .error .widerThanRequest := by decide
theorem test_wide_table_word_rejected : decodeTableWord 72 0x200000000000000000 = none := by decide

/-- The mnemonics of R34, in the order of their codes. -/
theorem test_mnemonics :
    (List.range 16).map (fun n => mnemonic (BitVec.ofNat 4 n)) =
      ["I2F.U32.F32", "I2F.U32.F64", "I2F.U64.F32", "I2F.U64.F64", "I2F.S32.F32", "I2F.S32.F64", "I2F.S64.F32",
       "I2F.S64.F64", "F2I.F32.U32", "F2I.F64.U32", "F2I.F32.U64", "F2I.F64.U64", "F2I.F32.S32", "F2I.F64.S32",
       "F2I.F32.S64", "F2I.F64.S64"] := by decide

/-- R36's example request, `I2F.S32.F32 0xFFFFFFFF`. -/
theorem test_assemble : assemble 0x4#4 false (0xFFFFFFFF : BitVec (srcWidth 0x4#4)) = 0x0400000000FFFFFFFF := by decide

/-! ## WellFormed: every request is legal; the host's lines have checks that refuse -/

theorem test_every_instruction_wf : (Instr.f2iF32S64 true 0xFFFFFFFFFFFFFFFF).wf = true := by decide
theorem test_wide_literal_refused : (Line.mk 0x0#4 false (.lit 0x100000000)).wf 0 = false := by decide
theorem test_own_value_refused : (Line.mk 0x0#4 false (.val 2)).wf 2 = false := by decide
theorem test_line_accepted : (Line.mk 0x0#4 false (.lit 0xFFFFFFFF)).wf 0 = true := by decide
theorem test_no_instance_refused : System.wf { blocks := [] } = false := by decide
/-- Instances of two ROUND_RULEs are no well-formed system (log 17). -/
theorem test_mixed_rules_refused :
    System.wf { blocks := [State.reset, { State.reset with config := { roundRule := .literalLow4 } }] } = false := by
  decide

/-! ## The operations, one step each -/

/-- The state after reset with a given ROUND_RULE and request. -/
def stateWith (r : RoundRule) (req : Request) : State :=
  { State.reset with config := { roundRule := r }, req := req }

/-- RES after one step on a request under the default ROUND_RULE. -/
def resOf (req : Request) : Option Word :=
  match step (stateWith .halfDownG3 req) with
  | .next t => some t.res
  | .fault _ => none
  | .refused _ => none

theorem test_i2fU32F32_tie_down : resOf 0x000000000001000003 = some 0x4B800001 := by decide
theorem test_i2fU32F32_carry : resOf 0x0000000000FFFFFF81 = some 0x4F800000 := by decide
theorem test_i2fU32F64 : resOf 0x0100000000FFFFFFFF = some 0x41EFFFFFFFE00000 := by decide
theorem test_i2fU64F32_sticky : resOf 0x02000000FFFFFF8001 = some 0x53800000 := by decide
theorem test_i2fU64F32_tie_down : resOf 0x02000000FFFFFF8000 = some 0x537FFFFF := by decide
theorem test_i2fU64F64 : resOf 0x03123456789ABCDEF0 = some 0x43B23456789ABCDF := by decide
theorem test_i2fS32F32_upper_half_ignored : resOf 0x04DEADBEEFFFFFFFFF = some 0xBF800000 := by decide
theorem test_i2fS32F32_most_negative : resOf 0x040000000080000000 = some 0xCF000000 := by decide
theorem test_i2fS32F64 : resOf 0x0500000000DEADBEEF = some 0xC1C0A92088800000 := by decide
theorem test_i2fS64F32 : resOf 0x06FFFFFFFFFFFFFBFF = some 0xC4802000 := by decide
theorem test_i2fS64F64_tie_toward_zero : resOf 0x07FFDFFFFFFFFFFFFD = some 0xC340000000000001 := by decide
theorem test_f2iF32U32 : resOf 0x08000000004F7FFFFF = some 0xFFFFFF00 := by decide
theorem test_f2iF32U32_negative : resOf 0x0800000000BFC00000 = some 0 := by decide
theorem test_f2iF64U32 : resOf 0x0941EFFFFFFFF00000 = some 0xFFFFFFFF := by decide
theorem test_f2iF32U64 : resOf 0x0A000000005F7FFFFF = some 0xFFFFFF0000000000 := by decide
theorem test_f2iF64U64 : resOf 0x0B433FFFFFFFFFFFFF = some 0x001FFFFFFFFFFFFF := by decide
theorem test_f2iF32S32_upper_half_zero : resOf 0x0C00000000BFC00000 = some 0x00000000FFFFFFFF := by decide
theorem test_f2iF32S32_clamped : resOf 0x0C000000004F000000 = some 0x7FFFFFFF := by decide
theorem test_f2iF64S32_nan : resOf 0x0DFFF8000000000001 = some 0x80000000 := by decide
theorem test_f2iF32S64 : resOf 0x0E00000000CF7FFFFF = some 0xFFFFFFFF00000100 := by decide
theorem test_f2iF64S64 : resOf 0x0FC1E0000000200000 = some 0xFFFFFFFF7FFFFFFF := by decide

/-- Part 4 of the vectors, column LITERAL_LOW4. -/
theorem test_literal_low4 :
    (match step (stateWith .literalLow4 0x000000000001000003) with
      | .next t => some t.res | .fault _ => none | .refused _ => none) = some 0x4B800002 := by decide

/-- Part 6: the DBG fields of `I2F.U64.F64.D 0xFFFFFFFFFFFFFC01`. -/
theorem test_debug_i2f :
    i2fTrace .halfDownG3 64 .unsigned .f64 0xFFFFFFFFFFFFFC01 =
      { isZero := some false, s := some false, m := some 0xFFFFFFFFFFFFFC01, n := some 64, e := some 1086,
        shiftLeft := some false, shiftAmt := some 8, sticky := some true, w := some 0xFFFFFFFFFFFFFD,
        up := some true, carry := some true, eFinal := some 1087, frac := some 0 } := by decide
/-- Part 6: the DBG fields of `F2I.F32.S32.D 0xBFC00000`. -/
theorem test_debug_f2i :
    f2iTrace .f32 32 .signed 0xBFC00000 =
      { s := some true, e := some 127, sig := some 0xC00000, belowOne := some false, u := some 0,
        saturated := some false, shiftLeft := some false, shiftAmt := some 23, mag := some 1,
        clamped := some false } := by decide +kernel
/-- Part 6: the infinity path of the generic engine, which no in-scope operand reaches (R82, R88). -/
theorem test_engine_infinity : normRound .halfDownG3 .f32 129 false (2 ^ 128) = 0x7F800000#32 := by rfl
theorem test_engine_infinity_by_carry :
    normRound .halfDownG3 .f32 128 false (2 ^ 128 - 1) = 0x7F800000#32 := by rfl

/-- The first step after reset answers the word placed by `withFetchWord` (log 16). -/
theorem test_first_step_after_reset :
    (match step (State.reset.withFetchWord 72 0x1C00000000BFC00000) with
      | .next t => some (t.res, t.dbg.valid) | .fault _ => none | .refused _ => none) =
      some (0xFFFFFFFF, true) := by decide

/-! ## Witnesses: operands that meet the hypotheses of each statement, one for each clause, at a boundary value -/

theorem witness_RequestFieldsSelectTheOperation :
    (0x1F0000000000000000 : Request).extractLsb' 64 4 = (0x0FFFFFFFFFFFFFFFFF : Request).extractLsb' 64 4 := by decide
theorem witness_DecodeAndEncodeAreInverse : (Instr.f2iF64S64 true (BitVec.allOnes 64)).wf = true := by decide
theorem witness_DecoderTotalOnRequestWords : (2 ^ 69 - 1 < 2 ^ 69) ∧ 2 ^ 69 ≤ 2 ^ 69 := by decide
theorem witness_StepRunsTheDecodedRequest :
    (decode State.reset.req = .i2fU32F32 false 0 ∧ (Instr.i2fU32F32 false 0).wf = true) ∧
    (decodeTableWord 72 (2 ^ 69 - 1) = some (.f2iF64S64 true 0xFFFFFFFFFFFFFFFF) ∧ 2 ^ 69 - 1 < 2 ^ 72) := by decide
theorem witness_StepKeepsPortsSettled_i2f :
    ∃ t, step (stateWith .literalLow4 0x14FFFFFFFF80000000) = .next t ∧ t.dbg.valid = true := ⟨_, rfl, rfl⟩
theorem witness_StepKeepsPortsSettled_f2i :
    ∃ t, step (stateWith .halfDownG3 0x1CFFFFFFFFBFC00000) = .next t ∧ t.dbg.valid = true := ⟨_, rfl, rfl⟩
/-- Two states with the same request that differ in everything an earlier operation left behind. -/
theorem witness_ResultDependsOnRequestAlone :
    let s := stateWith .halfDownG3 0x0400000000FFFFFFFF
    let s' := { s with res := 1, dbg := { s.dbg with valid := true }, freeCount := 7 }
    s.req = s'.req ∧ s.config = s'.config ∧ s.res ≠ s'.res := by decide
theorem witness_RepeatedRequestRepeatsResult :
    ∃ t, step (stateWith .halfDownG3 0x0400000000FFFFFFFF) = .next t ∧ t.res = 0xBF800000 := ⟨_, rfl, by decide⟩
theorem witness_UpperOperandHalfIgnored_i2f :
    srcWidth 0x4 = 32 ∧ (0xDEADBEEFFFFFFFFF : Word).setWidth 32 = (0x00000000FFFFFFFF : Word).setWidth 32 := by decide
theorem witness_UpperOperandHalfIgnored_f2i :
    srcWidth 0xE = 32 ∧ (0xFFFFFFFFBFC00000 : Word).setWidth 32 = (0x00000000BFC00000 : Word).setWidth 32 := by decide
theorem witness_UpperResultHalfZero : dstWidth 0x6 = 32 ∧ dstWidth 0xD = 32 := by decide

theorem witness_FromPartsPacksFields :
    255 ≤ FloatFormat.f32.emax ∧ 2 ^ 23 - 1 < 2 ^ FloatFormat.f32.sigBits ∧
    2047 ≤ FloatFormat.f64.emax ∧ 2 ^ 52 - 1 < 2 ^ FloatFormat.f64.sigBits := by decide
theorem witness_PayloadLenIsBitLength :
    (1 ≠ 0 ∧ 1 < 2 ^ 32) ∧ (2 ^ 64 - 1 ≠ 0 ∧ 2 ^ 64 - 1 < 2 ^ 64) := by decide
theorem witness_SignAndMagnitudeExact :
    0 < 64 ∧ (0x7FFFFFFFFFFFFFFF#64).getLsbD (64 - 1) = false ∧ (0xFFFFFFFFFFFFFFFF#64).getLsbD (64 - 1) = true ∧
    (0x8000000000000000#64).toNat = 2 ^ (64 - 1) := by decide

/-- Left: 26 bits to F32, the longest; 53 bits of a U64 to F64; 32 bits to F64. -/
theorem witness_AlignmentPutsLeadingOneOnTop_left :
    (1 ≤ 2 ^ 26 - 1 ∧ 2 ^ 26 - 1 < 2 ^ 32 ∧ payloadLen 32 (2 ^ 26 - 1) < FloatFormat.f32.workW) ∧
    (1 ≤ 2 ^ 53 - 1 ∧ 2 ^ 53 - 1 < 2 ^ 64 ∧ payloadLen 64 (2 ^ 53 - 1) < FloatFormat.f64.workW) ∧
    (1 ≤ 2 ^ 32 - 1 ∧ 2 ^ 32 - 1 < 2 ^ 32 ∧ payloadLen 32 (2 ^ 32 - 1) < FloatFormat.f64.workW) := by decide
/-- Right with k = 0, with a sticky bit, and with the largest k of each pair of widths. -/
theorem witness_AlignmentPutsLeadingOneOnTop_right :
    payloadLen 32 (2 ^ 27 - 1) - FloatFormat.f32.workW = 0 ∧ FloatFormat.f32.workW ≤ payloadLen 32 (2 ^ 27 - 1) ∧
    alignSticky .f32 28 (2 ^ 28 - 1) = true ∧ FloatFormat.f32.workW ≤ payloadLen 32 (2 ^ 28 - 1) ∧
    payloadLen 32 (2 ^ 31) - FloatFormat.f32.workW = 5 ∧ payloadLen 64 (2 ^ 63) - FloatFormat.f32.workW = 37 ∧
    payloadLen 64 (2 ^ 63) - FloatFormat.f64.workW = 8 := by decide
theorem witness_RoundingPredicates : 0x4000000 % 8 = 0 ∧ 0x400000C % 8 = 4 := by decide
/-- Within range at both ends; rounding up, not up; a carry, no carry. -/
theorem witness_IncrementAndCarry :
    2 ^ (FloatFormat.f32.sigBits + 3) ≤ 2 ^ 26 ∧ 2 ^ 27 - 1 < 2 ^ (FloatFormat.f32.sigBits + 4) ∧
    roundUp .halfDownG3 (2 ^ 27 - 1) = true ∧ roundUp .halfDownG3 (2 ^ 26) = false ∧
    carryOut .f32 (keptRounded .halfDownG3 (2 ^ 27 - 1)) = true ∧
    carryOut .f32 (keptRounded .halfDownG3 (2 ^ 26)) = false := by decide
/-- The carry into EMAX, and the last exponent whose carry stays below it. -/
theorem witness_IncrementAndCarry_infinity :
    FloatFormat.f32.emax ≤ exponentAfter .f32 254 (keptRounded .halfDownG3 (2 ^ 27 - 1)) ∧
    253 + 1 < FloatFormat.f32.emax := by decide

theorem witness_InScopeWidth : InScopeWidth 32 ∧ InScopeWidth 64 := ⟨.inl rfl, .inr rfl⟩
/-- Operands for the statements on I2F in both widths (with `witness_InScopeWidth`). -/
theorem witness_NonzeroResultIsNormal : (1 : BitVec 32) ≠ 0 ∧ (0x8000000000000000 : BitVec 64) ≠ 0 := by decide
theorem witness_ZeroOperandGivesPositiveZero : (0#32 = 0) ∧ (1#64 ≠ 0) := by decide
theorem witness_HalfDownFloorForm : (0x01000003 : BitVec 32) ≠ 0 ∧ (0xFFFFFFFFFFFFFC01 : BitVec 64) ≠ 0 := by decide
theorem witness_LiteralLow4Form : (0x04000007 : BitVec 32) ≠ 0 ∧ (0xFFFFFFFFFFFFFFFF : BitVec 64) ≠ 0 := by decide
/-- `Nat.size` of a number between two powers of 2. -/
theorem size_eq {m n : Nat} (h1 : 2 ^ n ≤ m) (h2 : m < 2 ^ (n + 1)) : Nat.size m = n + 1 :=
  le_antisymm (Nat.size_le.2 h2) (Nat.lt_size.2 h1)
/-- A zero operand, a nonzero one that converts exactly and one that does not. -/
theorem witness_IntToFloatAnswersWithinUnit :
    intValue .unsigned (0 : BitVec 32) = 0 ∧ intValue .signed (0x80000000 : BitVec 32) ≠ 0 ∧
    (2 ^ (Nat.size 16777216 - 24) ∣ 16777216) ∧ ¬ (2 ^ (Nat.size 16777217 - 24) ∣ 16777217) := by
  rw [size_eq (m := 16777216) (n := 24) (by norm_num) (by norm_num),
    size_eq (m := 16777217) (n := 24) (by norm_num) (by norm_num)]
  decide
theorem witness_IntToFloatNearestTiesTowardZero :
    (stateWith .halfDownG3 0).config.roundRule = .halfDownG3 ∧ State.reset.config.roundRule = .halfDownG3 := by decide
theorem witness_Int32ToFloat64IsExact :
    (0xFFFFFFFF00000000 : Word).setWidth 32 = 0 ∧ (0x80000000 : Word).setWidth 32 ≠ 0 := by decide
theorem witness_IntToFloatIsMonotonic :
    (1 ≤ 1 ∧ 1 ≤ 2 ^ 64 - 1 ∧ 2 ^ 64 - 1 < 2 ^ 64) ∧
    ((0x00FFFFFF#32).toNat ≤ (0x01000001#32).toNat ∧ (2#64).toNat ≤ (2#64).toNat) ∧
    intValue .signed (0x80000000#32) ≤ intValue .signed (0x7FFFFFFF#32) ∧
    intValue .unsigned (0#64) ≤ intValue .unsigned (0xFFFFFFFFFFFFFFFF#64) := by decide
theorem witness_NegativeOperandMirrorsPositive :
    ((0x80000000#32).toInt < 0 ∧ (0xFFFFFFFFFFFFFFFF#64).toInt < 0) ∧ 0 ≤ (0#32).toInt ∧
    (0 < (0x7FFFFFFF#32).toInt ∧ 0 < (1#64).toInt) := by decide
/-- The most negative S32 and its magnitude, 2^31, mirror each other (R68: 0xCF000000; R109: 2^31 is 0x4F000000). -/
theorem test_most_negative_mirrors :
    i2f .halfDownG3 32 .signed .f32 0x80000000 = 0xCF000000#32 ∧
    i2f .halfDownG3 32 .unsigned .f32 0x80000000 = 0x4F000000#32 := by decide

/-- The patterns 1/2 and 2^32 of F32, for the clauses on normal values. -/
theorem classify_f32_half : classify .f32 0x3F000000 = .normal (1 / 2) := by
  have h : unpack .f32 0x3F000000 = ⟨false, 126, 0⟩ := by decide
  have h4 : BitVec.toNat (126 : BitVec FloatFormat.f32.expBits) = 126 := rfl
  have h5 : (126 : BitVec FloatFormat.f32.expBits) ≠ 0 := by decide
  have h2 : FloatFormat.f32.emax = 255 := rfl
  have h3 : FloatFormat.f32.bias = 127 := rfl
  simp only [classify, normalValue, h, h2, h3, h4, h5, sigWithImplicit]
  norm_num
theorem classify_f32_two_pow_32 : classify .f32 0x4F800000 = .normal (2 ^ 32) := by
  have h : unpack .f32 0x4F800000 = ⟨false, 159, 0⟩ := by decide
  have h4 : BitVec.toNat (159 : BitVec FloatFormat.f32.expBits) = 159 := rfl
  have h5 : (159 : BitVec FloatFormat.f32.expBits) ≠ 0 := by decide
  have h2 : FloatFormat.f32.emax = 255 := rfl
  have h3 : FloatFormat.f32.bias = 127 := rfl
  simp only [classify, normalValue, h, h2, h3, h4, h5, sigWithImplicit]
  norm_num

/-- The largest pattern below 1, a negative subnormal, and 1/2. -/
theorem witness_MagnitudeBelowOneGivesZero :
    (unpack .f32 0x3F7FFFFF).exp.toNat < FloatFormat.f32.bias ∧ (unpack .f64 0x8000000000000001).exp = 0 ∧
    ∃ v, classify .f32 0x3F000000 = .normal v ∧ |v| < 1 :=
  ⟨by decide, by decide, 1 / 2, classify_f32_half, by norm_num [abs_lt]⟩
/-- 2^32 and its negative, the first exponent that saturates 32 bits, and 2^64 of F64 for 64 bits. -/
theorem witness_ExponentSaturation_exponent :
    FloatFormat.f32.bias + 32 ≤ (unpack .f32 0x4F800000).exp.toNat ∧ (unpack .f32 0x4F800000).sign = false ∧
    FloatFormat.f32.bias + 32 ≤ (unpack .f32 0xCF800000).exp.toNat ∧ (unpack .f32 0xCF800000).sign = true ∧
    FloatFormat.f64.bias + 64 ≤ (unpack .f64 0x43F0000000000000).exp.toNat := by decide
theorem witness_ExponentSaturation_special :
    (unpack .f32 0x7F800000).exp.toNat = FloatFormat.f32.emax ∧
    (unpack .f64 0xFFF8000000000001).exp.toNat = FloatFormat.f64.emax := by decide
theorem witness_ExponentSaturation_value : ∃ v, classify .f32 0x4F800000 = .normal v ∧ (2 : ℚ) ^ 32 ≤ |v| :=
  ⟨_, classify_f32_two_pow_32, by norm_num [abs_of_pos]⟩
/-- A right shift (1.5), a left shift by 0 (2^23) and by 40 (the top of U64), and F64 to 32 bits. -/
theorem witness_ShiftTruncatesTowardZero :
    (FloatFormat.f32.bias ≤ (unpack .f32 0x3FC00000).exp.toNat ∧
      unbiasedExp .f32 (unpack .f32 0x3FC00000).exp.toNat < FloatFormat.f32.sigBits) ∧
    unbiasedExp .f32 (unpack .f32 0x4B000000).exp.toNat = FloatFormat.f32.sigBits ∧
    unbiasedExp .f32 (unpack .f32 0x5F7FFFFF).exp.toNat = 63 ∧
    (FloatFormat.f64.bias ≤ (unpack .f64 0x41EFFFFFFFFFFFFF).exp.toNat ∧
      unbiasedExp .f64 (unpack .f64 0x41EFFFFFFFFFFFFF).exp.toNat = 31) := by decide
/-- Signed, W = 32: 2^31 and the F64 pattern just below -2^31, both at u = 31; -2^31 itself; and 2^31 - 128, the last
F32 value below the bands. -/
theorem witness_ClampBands_signed :
    (unbiasedExp .f32 (unpack .f32 0x4F000000).exp.toNat = 31 ∧ (unpack .f32 0x4F000000).sign = false) ∧
    (unbiasedExp .f64 (unpack .f64 0xC1E0000000200000).exp.toNat = 31 ∧ (unpack .f64 0xC1E0000000200000).sign = true ∧
      2 ^ 31 < magnitude .f64 31 (sigWithImplicit .f64 (unpack .f64 0xC1E0000000200000).frac)) ∧
    ((unpack .f32 0xCF000000).sign = true ∧
      magnitude .f32 31 (sigWithImplicit .f32 (unpack .f32 0xCF000000).frac) = 2 ^ 31) ∧
    unbiasedExp .f32 (unpack .f32 0x4EFFFFFF).exp.toNat = 30 := by decide
/-- Unsigned: -1.5, and the top of U64. -/
theorem witness_ClampBands_unsigned :
    (FloatFormat.f32.bias ≤ (unpack .f32 0xBFC00000).exp.toNat ∧
      unbiasedExp .f32 (unpack .f32 0xBFC00000).exp.toNat < 32 ∧ (unpack .f32 0xBFC00000).sign = true) ∧
    (unbiasedExp .f32 (unpack .f32 0x5F7FFFFF).exp.toNat < 64 ∧ (unpack .f32 0x5F7FFFFF).sign = false) := by decide
theorem witness_RoundTripIsSaturated :
    (0#32 = 0) ∧ (1#32 ≠ 0) ∧ (2 ^ (Nat.size (intValue .signed (0x80000000#32)).natAbs - 24) ∣
      (intValue .signed (0x80000000#32)).natAbs) := by
  refine ⟨by decide, by decide, ?_⟩
  have h : (intValue .signed (0x80000000#32)).natAbs = 2147483648 := by decide
  rw [h, size_eq (m := 2147483648) (n := 31) (by norm_num) (by norm_num)]; decide
theorem witness_DebugFields : opDir 0x3 = .intToFloat ∧ opDir 0xC = .floatToInt := by decide
/-- A system of two blocks under one ROUND_RULE, and schedules over both. -/
def twoBlocks : System := { blocks := [stateWith .literalLow4 0, stateWith .literalLow4 1] }
theorem witness_EveryScheduleGivesConvert :
    (∀ p ∈ [(1, (0x000000000001000003 : Request)), (0, 0x000000000001000003), (1, 0)], p.1 < twoBlocks.numBlocks) ∧
    twoBlocks.wf = true := by decide
theorem witness_ServingInstanceDoesNotMatter :
    let sched : List (Nat × Request) := [(1, 0x000000000001000003), (0, 0x1C00000000BFC00000)]
    let sched' : List (Nat × Request) := [(0, 0x000000000001000003), (0, 0x1C00000000BFC00000)]
    twoBlocks.wf = true ∧ (∀ p ∈ sched, p.1 < twoBlocks.numBlocks) ∧ (∀ p ∈ sched', p.1 < twoBlocks.numBlocks) ∧
    sched.map Prod.snd = sched'.map Prod.snd ∧ sched ≠ sched' := by decide
theorem witness_UnaddressedBlocksUnchanged :
    ∃ vs sys', twoBlocks.serve [(1, 0x000000000001000003)] = some (vs, sys') ∧ vs = [0x4B800002] :=
  ⟨_, _, rfl, by decide⟩
theorem witness_UnaddressedBlocksUnchanged_block : ∀ p ∈ [(1, (0x000000000001000003 : Request))], p.1 ≠ 0 := by decide

end Sys2Proof.Tests
end

section
/-! PROOFS. A step on the subfields of `op` (spec/30_encoding.md R31): the eight arms of each direction are one generic
conversion of the operand cut to its source width, and so is CONVERT. With these two readings of a step no later proof
looks at a single operation. -/

namespace Sys2Proof.Machine

/-- An F32 operand is the low half of `value`, and an F64 operand the whole of it (R32). -/
theorem operand32_eq_setWidth_total (v : Word) : operand32 v = v.setWidth FloatFormat.f32.total :=
  operand32_eq_setWidth v

theorem operand64_eq_setWidth_total (v : Word) : operand64 v = v.setWidth FloatFormat.f64.total :=
  (BitVec.setWidth_eq v).symm

/-- DIR = 0 (R31, R64 to R71). -/
theorem step_of_intToFloat {s : State} (h : opDir (reqOp s.req) = .intToFloat) :
    step s = runI2F (opIntWidth (reqOp s.req)) (opSgn (reqOp s.req)) (opFormat (reqOp s.req))
      ((reqValue s.req).setWidth _) (reqDiag s.req) s := by
  have h3 : (reqOp s.req).getLsbD 3 = false := by simpa [opDir] using h
  simp only [step, decode, opIntWidth, opSgn, opFormat, h3]
  cases (reqOp s.req).getLsbD 2 <;> cases (reqOp s.req).getLsbD 1 <;> cases (reqOp s.req).getLsbD 0 <;>
    simp [exec_i2fU32F32, exec_i2fU32F64, exec_i2fU64F32, exec_i2fU64F64, exec_i2fS32F32, exec_i2fS32F64,
      exec_i2fS64F32, exec_i2fS64F64, operand32_eq_setWidth]

/-- DIR = 1 (R31, R109 to R116). -/
theorem step_of_floatToInt {s : State} (h : opDir (reqOp s.req) = .floatToInt) :
    step s = runF2I (opFormat (reqOp s.req)) (opIntWidth (reqOp s.req)) (opSgn (reqOp s.req))
      ((reqValue s.req).setWidth _) (reqDiag s.req) s := by
  have h3 : (reqOp s.req).getLsbD 3 = true := by simpa [opDir] using h
  simp only [step, decode, opIntWidth, opSgn, opFormat, h3]
  cases (reqOp s.req).getLsbD 2 <;> cases (reqOp s.req).getLsbD 1 <;> cases (reqOp s.req).getLsbD 0 <;>
    simp only [exec_f2iF32U32, exec_f2iF64U32, exec_f2iF32U64, exec_f2iF64U64, exec_f2iF32S32, exec_f2iF64S32,
      exec_f2iF32S64, exec_f2iF64S64, operand32_eq_setWidth_total, operand64_eq_setWidth_total] <;>
    rfl

/-- A presented request is answered with its own fields: the two readings on {diag, op, value} (R30, R147). -/
theorem step_present_of_intToFloat (s : State) (d : Bool) {op : BitVec 4} (v : Word) (h : opDir op = .intToFloat) :
    step (s.present (mkRequest d op v)) = .next ((s.present (mkRequest d op v)).drive d
      (resultWord (i2f s.config.roundRule (opIntWidth op) (opSgn op) (opFormat op) (v.setWidth _)))
      (i2fTrace s.config.roundRule (opIntWidth op) (opSgn op) (opFormat op) (v.setWidth _))) := by
  rw [step_of_intToFloat (by rw [State.present_req, reqOp_mkRequest, h]), runI2F_next, State.present_req,
    reqOp_mkRequest, reqValue_mkRequest, reqDiag_mkRequest, State.present_config]

theorem step_present_of_floatToInt (s : State) (d : Bool) {op : BitVec 4} (v : Word) (h : opDir op = .floatToInt) :
    step (s.present (mkRequest d op v)) = .next ((s.present (mkRequest d op v)).drive d
      (resultWord (f2i (opFormat op) (opIntWidth op) (opSgn op) (v.setWidth _)))
      (f2iTrace (opFormat op) (opIntWidth op) (opSgn op) (v.setWidth _))) := by
  rw [step_of_floatToInt (by rw [State.present_req, reqOp_mkRequest, h]), runF2I_next, State.present_req,
    reqOp_mkRequest, reqValue_mkRequest, reqDiag_mkRequest]

theorem convert_of_intToFloat {r : RoundRule} {req : Request} (h : opDir (reqOp req) = .intToFloat) :
    convert r req = resultWord (i2f r (opIntWidth (reqOp req)) (opSgn (reqOp req)) (opFormat (reqOp req))
      ((reqValue req).setWidth _)) := by
  simp [convert, h]

theorem convert_of_floatToInt {r : RoundRule} {req : Request} (h : opDir (reqOp req) = .floatToInt) :
    convert r req = resultWord (f2i (opFormat (reqOp req)) (opIntWidth (reqOp req)) (opSgn (reqOp req))
      ((reqValue req).setWidth _)) := by
  simp [convert, h]

/-- Settles O9: each direction's arms drive RES with its generic conversion, which is CONVERT's. -/
theorem stepComputesConvert : Obligations.StepComputesConvert := by
  intro s
  cases h : opDir (reqOp s.req) with
  | intToFloat =>
    exact ⟨_, (step_of_intToFloat h).trans runI2F_next, drive_onlyPortsChange .., (convert_of_intToFloat h).symm,
      (convert_of_intToFloat h).symm, rfl⟩
  | floatToInt =>
    exact ⟨_, (step_of_floatToInt h).trans runF2I_next, drive_onlyPortsChange .., (convert_of_floatToInt h).symm,
      (convert_of_floatToInt h).symm, rfl⟩

/-- Settles O13: RES and DBG.valid are functions of REQ and ROUND_RULE. -/
theorem resultDependsOnRequestAlone : Obligations.ResultDependsOnRequestAlone := by
  intro s s' hreq hconfig
  obtain ⟨t, hstep, -, hres, -, hvalid⟩ := stepComputesConvert s
  obtain ⟨t', hstep', -, hres', -, hvalid'⟩ := stepComputesConvert s'
  exact ⟨t, t', hstep, hstep', by rw [hres, hres', hreq, hconfig], by rw [hvalid, hvalid', hreq]⟩

/-- A table word that decodes stands for the request of its low `nbits` bits (R30, R35). -/
theorem decode_of_decodeTableWord {nbits w : Nat} {i : Instr} (h : decodeTableWord nbits w = some i) :
    decode (BitVec.ofNat 69 (w % 2 ^ nbits)) = i := by
  unfold decodeTableWord decodeNat at h
  split_ifs at h
  simpa using h

/-- Settles O7: a step is `exec` of what REQ decodes to, and `withFetchWord` puts the table word on REQ. -/
theorem stepRunsTheDecodedRequest : Obligations.StepRunsTheDecodedRequest := by
  have hstep : ∀ (s : State) (i : Instr), decode s.req = i → step s = exec i s := by
    rintro s i rfl; rfl
  exact ⟨fun s i h _ => hstep s i h, fun s w i h _ => hstep _ i (decode_of_decodeTableWord h)⟩

end Sys2Proof.Machine
end

section
/-! PROOFS. Integer to float: what the engine leaves on RES and on DBG for a nonzero magnitude of an in-scope width
(spec/42_normalize_round.md R80 to R90, spec/60_exceptions.md R128). The infinity exits are out of reach there (R90). -/

namespace Sys2Proof.Machine

theorem signMag_lt {W : Nat} (sg : Signedness) (x : BitVec W) : (signMag W sg x).2 < 2 ^ W := by
  cases sg with
  | unsigned => exact x.isLt
  | signed =>
    simp only [signMag]
    split
    · exact Nat.mod_lt _ (Nat.two_pow_pos W)
    · exact x.isLt

theorem signMag_ne_zero {W : Nat} (sg : Signedness) {x : BitVec W} (hx : x ≠ 0) : (signMag W sg x).2 ≠ 0 := by
  have hpos : x.toNat ≠ 0 := fun h => hx (BitVec.eq_of_toNat_eq h)
  cases sg with
  | unsigned => exact hpos
  | signed =>
    simp only [signMag]
    split
    · have := x.isLt
      rw [Nat.mod_eq_of_lt (by omega)]; omega
    · exact hpos

/-- R86, R87: the three guard bits dropped, and the rounding increment. -/
theorem keptRounded_eq (r : RoundRule) (w : Nat) : keptRounded r w = w / 8 + (roundUp r w).toNat := by
  simp [keptRounded, guardBits, Nat.shiftRight_eq_div_pow]

/-- R88: the carry is added to the exponent. -/
theorem exponentAfter_eq (F : FloatFormat) (e kept : Nat) : exponentAfter F e kept = e + (carryOut F kept).toNat := by
  cases h : carryOut F kept <;> simp [exponentAfter, h]

/-- R88: after a carry the significand field is 0. -/
theorem fracOf_of_carryOut {F : FloatFormat} {kept : Nat} (h : carryOut F kept = true) : fracOf F kept = 0 := by
  simp only [carryOut, decide_eq_true_eq] at h
  rw [fracOf, h, pow_succ, Nat.mul_mod_right]

theorem packRounded_toNat {F : FloatFormat} {s : Bool} {e kept : Nat} (h : e < F.emax) :
    (packRounded F s e kept).toNat = s.toNat * 2 ^ (F.total - 1) + e * 2 ^ F.sigBits + fracOf F kept := by
  rw [packRounded, dif_neg (by omega), fromParts_toNat]
  simp

section
variable (r : RoundRule) (F : FloatFormat) {W m : Nat} (s : Bool) (hW : W ≤ 64) (h0 : m ≠ 0) (h : m < 2 ^ W)
include hW h0 h

/-- R52, R82: an in-scope magnitude has at most 64 bits, so the exponent stays below EMAX, with room for a carry. -/
theorem initialExp_add_one_lt_emax : initialExp F (Nat.size m) + 1 < F.emax := by
  have hsize : Nat.size m ≤ W := Nat.size_le.2 h
  obtain ⟨hn, -, -⟩ := size_bounds h0
  obtain ⟨-, hemax, -⟩ := bias_facts F
  simp only [initialExp]; omega

theorem exponentAfter_lt_emax (kept : Nat) : exponentAfter F (initialExp F (Nat.size m)) kept < F.emax := by
  have := initialExp_add_one_lt_emax F hW h0 h
  have := Bool.toNat_le (carryOut F kept)
  rw [exponentAfter_eq]; omega

/-- The engine's result, as the number on RES (R80 to R89). -/
theorem normRound_toNat :
    let kept := keptRounded r (aligned F (Nat.size m) m)
    (normRound r F W s m).toNat = s.toNat * 2 ^ (F.total - 1) +
      exponentAfter F (initialExp F (Nat.size m)) kept * 2 ^ F.sigBits + fracOf F kept := by
  intro kept
  obtain ⟨hn, hl, hu⟩ := size_bounds h0
  have he := initialExp_add_one_lt_emax F hW h0 h
  rw [← packRounded_toNat (exponentAfter_lt_emax F hW h0 h kept)]
  simp only [normRound, payloadLen_eq_size h0 h, workReg_eq hn hl hu]
  rw [if_neg (by omega)]

/-- The engine's fields on DBG, all of them meaningful (R128). -/
theorem engineTrace_eq :
    let n := Nat.size m
    let w := aligned F n m
    let kept := keptRounded r w
    engineTrace r F W s m =
      { isZero := some false, s := some s, m := some m, n := some n, e := some (initialExp F n)
        shiftLeft := some (alignsLeft F n), shiftAmt := some (alignAmount F n), sticky := some (alignSticky F n m)
        w := some w, up := some (roundUp r w), carry := some (carryOut F kept)
        eFinal := some (exponentAfter F (initialExp F n) kept), frac := some (fracOf F kept) } := by
  intro n w kept
  obtain ⟨hn, hl, hu⟩ := size_bounds h0
  have he := initialExp_add_one_lt_emax F hW h0 h
  have he' := exponentAfter_lt_emax F hW h0 h kept
  simp only [engineTrace, payloadLen_eq_size h0 h, workReg_eq hn hl hu]
  rw [if_neg (by omega), if_neg he'.not_ge]

theorem engine_portsAgree (free : DbgFields) :
    I2fPortsAgree F ((engineTrace r F W s m).overlay free) (resultWord (normRound r F W s m)) := by
  obtain ⟨hn, hl, hu⟩ := size_bounds h0
  obtain ⟨hw1, hw2⟩ := aligned_bounds (F := F) hn hl hu
  rw [engineTrace_eq r F s hW h0 h]
  refine ⟨by simp [DbgTrace.overlay], fun _ =>
    ⟨exponentAfter_eq .., frac_fits .., fracOf_of_carryOut, hw1, hw2, ?_⟩⟩
  exact (resultWord_toNat (by cases F <;> decide) _).trans (normRound_toNat r F s hW h0 h)

end

theorem i2f_zero (r : RoundRule) (W : Nat) (sg : Signedness) (F : FloatFormat) : i2f r W sg F 0 = 0 :=
  if_pos rfl

theorem i2fTrace_zero (r : RoundRule) (W : Nat) (sg : Signedness) (F : FloatFormat) :
    i2fTrace r W sg F 0 = { isZero := some true } := if_pos rfl

theorem i2f_of_ne_zero (r : RoundRule) {W : Nat} (sg : Signedness) (F : FloatFormat) {x : BitVec W} (hx : x ≠ 0) :
    i2f r W sg F x = normRound r F W (signMag W sg x).1 (signMag W sg x).2 := if_neg hx

theorem i2fTrace_of_ne_zero (r : RoundRule) {W : Nat} (sg : Signedness) (F : FloatFormat) {x : BitVec W}
    (hx : x ≠ 0) : i2fTrace r W sg F x = engineTrace r F W (signMag W sg x).1 (signMag W sg x).2 :=
  if_neg hx

/-- RES and a valid DBG tell of the same integer to float conversion (R128). -/
theorem i2f_portsAgree (r : RoundRule) {W : Nat} (hW : W ≤ 64) (sg : Signedness) (F : FloatFormat) (x : BitVec W)
    (free : DbgFields) :
    I2fPortsAgree F ((i2fTrace r W sg F x).overlay free) (resultWord (i2f r W sg F x)) := by
  by_cases hx : x = 0
  · subst hx
    rw [i2fTrace_zero, i2f_zero]
    simp [I2fPortsAgree, DbgTrace.overlay, resultWord]
  · rw [i2fTrace_of_ne_zero r sg F hx, i2f_of_ne_zero r sg F hx]
    exact engine_portsAgree r F _ hW (signMag_ne_zero sg hx) (signMag_lt sg x) free

/-- R14's minimum widths for the fields of an integer to float conversion, as O46 lists them. -/
def I2fFieldsFit (F : FloatFormat) (W : Nat) (f : DbgFields) : Prop :=
  f.isZero = false →
    f.m < 2 ^ W ∧ f.n < 2 ^ 7 ∧ f.e < 2 ^ (F.expBits + 1) ∧ f.eFinal < 2 ^ (F.expBits + 1) ∧
    f.w < 2 ^ (F.sigBits + 4) ∧ f.w / 8 + f.up.toNat < 2 ^ (F.sigBits + 2) ∧ f.frac < 2 ^ F.sigBits

theorem engineTrace_fieldsFit (r : RoundRule) (F : FloatFormat) {W m : Nat} (s : Bool) (hW : W ≤ 64) (h0 : m ≠ 0)
    (h : m < 2 ^ W) (free : DbgFields) : I2fFieldsFit F W ((engineTrace r F W s m).overlay free) := by
  obtain ⟨hn, hl, hu⟩ := size_bounds h0
  obtain ⟨hw1, hw2⟩ := aligned_bounds (F := F) hn hl hu
  obtain ⟨-, hkept⟩ := kept_bounds r hw1 hw2
  obtain ⟨-, -, hemax⟩ := bias_facts F
  have hsize : Nat.size m ≤ W := Nat.size_le.2 h
  have hexp : 2 ^ F.expBits < 2 ^ (F.expBits + 1) := Nat.pow_lt_pow_succ (by decide)
  have hn7 : Nat.size m < 2 ^ 7 := by omega
  have he : initialExp F (Nat.size m) < 2 ^ (F.expBits + 1) := by
    have := initialExp_add_one_lt_emax F hW h0 h
    omega
  have he' := (exponentAfter_lt_emax F hW h0 h (keptRounded r (aligned F (Nat.size m) m))).trans (hemax.trans hexp)
  have hkept' := hkept.trans_lt (Nat.pow_lt_pow_succ (n := F.sigBits + 1) (by decide))
  rw [keptRounded_eq] at hkept'
  rw [engineTrace_eq r F s hW h0 h]
  exact fun _ => ⟨h, hn7, he, he', hw2, hkept', frac_fits ..⟩

theorem i2fTrace_fieldsFit (r : RoundRule) {W : Nat} (hW : W ≤ 64) (sg : Signedness) (F : FloatFormat)
    (x : BitVec W) (free : DbgFields) : I2fFieldsFit F W ((i2fTrace r W sg F x).overlay free) := by
  by_cases hx : x = 0
  · subst hx
    rw [i2fTrace_zero]
    simp [I2fFieldsFit, DbgTrace.overlay]
  · rw [i2fTrace_of_ne_zero r sg F hx]
    exact engineTrace_fieldsFit r F _ hW (signMag_ne_zero sg hx) (signMag_lt sg x) free

end Sys2Proof.Machine
end

section
/-! PROOFS. Float to integer: the three paths of the conversion as they show on RES and on DBG
(spec/43_fp_to_int.md R102 to R108, spec/60_exceptions.md R128). -/

namespace Sys2Proof.Machine

/-! ## The destination integer (R53, R55) -/

theorem imin_nonpos (W : Nat) (sg : Signedness) : imin W sg ≤ 0 := by
  cases sg with
  | unsigned => exact le_rfl
  | signed => exact neg_nonpos.2 (by positivity)

theorem imax_nonneg (W : Nat) (sg : Signedness) : 0 ≤ imax W sg := by
  cases sg <;> exact sub_nonneg.2 (one_le_pow₀ (by norm_num))

/-- An integer within the destination's extremes is what its vector stands for. -/
theorem intValue_toBits {W : Nat} {sg : Signedness} {z : Int} (hW : 0 < W) (hlo : imin W sg ≤ z)
    (hhi : z ≤ imax W sg) : intValue sg (toBits W z) = z := by
  cases sg with
  | unsigned =>
    simp only [imin, imax] at hlo hhi
    simp only [intValue, toBits, BitVec.toNat_ofInt]
    push_cast
    rw [Int.emod_eq_of_lt hlo (by omega)]
    omega
  | signed =>
    simp only [imin, imax] at hlo hhi
    exact BitVec.toInt_ofInt_eq_self hW hlo (by omega)

theorem clamp_bounds (W : Nat) (sg : Signedness) (z : Int) :
    imin W sg ≤ clamp z (imin W sg) (imax W sg) ∧ clamp z (imin W sg) (imax W sg) ≤ imax W sg := by
  have := imin_nonpos W sg
  have := imax_nonneg W sg
  unfold clamp
  split_ifs <;> omega

theorem extremeOf_bounds (W : Nat) (sg : Signedness) (s : Bool) :
    imin W sg ≤ extremeOf W sg s ∧ extremeOf W sg s ≤ imax W sg := by
  have hle := (imin_nonpos W sg).trans (imax_nonneg W sg)
  cases s with
  | false => exact ⟨hle, le_rfl⟩
  | true => exact ⟨le_rfl, hle⟩

/-- R106: a clamp that changes the signed value gives the extreme of its sign, for a value of one sign can only pass
the extreme on its own side of 0. -/
theorem clamp_of_clampChanges {W : Nat} {sg : Signedness} {s : Bool} {mag : Nat}
    (h : clampChanges W sg (signedMag s mag) = true) :
    clamp (signedMag s mag) (imin W sg) (imax W sg) = extremeOf W sg s := by
  have := imin_nonpos W sg
  have := imax_nonneg W sg
  simp only [clampChanges, decide_eq_true_eq, ne_eq] at h
  cases s with
  | false =>
    simp only [clamp, signedMag, extremeOf, Bool.false_eq_true, if_false] at h ⊢
    split_ifs at h ⊢ <;> omega
  | true =>
    simp only [clamp, signedMag, extremeOf, if_true] at h ⊢
    split_ifs at h ⊢ <;> omega

theorem resultWord_setWidth {W : Nat} (hW : W ≤ 64) (r : BitVec W) : (resultWord r).setWidth W = r := by
  simp [resultWord, BitVec.setWidth_setWidth_of_le, hW]

/-! ## The magnitude (R47, R105) -/

theorem sigWithImplicit_bounds (F : FloatFormat) (frac : BitVec F.sigBits) :
    2 ^ F.sigBits ≤ sigWithImplicit F frac ∧ sigWithImplicit F frac < 2 ^ (F.sigBits + 1) := by
  have := frac.isLt
  rw [sigWithImplicit, pow_succ]; omega

/-- The leading 1 of the significand, at bit M, is shifted to bit u. -/
theorem magnitude_bounds {F : FloatFormat} {u sig : Nat} (h1 : 2 ^ F.sigBits ≤ sig) (h2 : sig < 2 ^ (F.sigBits + 1)) :
    2 ^ u ≤ magnitude F u sig ∧ magnitude F u sig < 2 ^ (u + 1) := by
  by_cases hu : F.sigBits ≤ u
  · have hmag : magnitude F u sig = sig * 2 ^ (u - F.sigBits) := by
      simp [magnitude, shiftAmount, shiftsLeft, hu, Nat.shiftLeft_eq]
    have hpow : 2 ^ u = 2 ^ F.sigBits * 2 ^ (u - F.sigBits) := by rw [← pow_add, Nat.add_sub_cancel' hu]
    rw [hmag, pow_succ, hpow]
    rw [pow_succ] at h2
    constructor
    · exact Nat.mul_le_mul_right _ h1
    · calc sig * 2 ^ (u - F.sigBits) < 2 ^ F.sigBits * 2 * 2 ^ (u - F.sigBits) :=
          Nat.mul_lt_mul_of_pos_right h2 (by positivity)
        _ = _ := by ring
  · have hmag : magnitude F u sig = sig / 2 ^ (F.sigBits - u) := by
      simp [magnitude, shiftAmount, shiftsLeft, hu, Nat.shiftRight_eq_div_pow]
    rw [hmag, Nat.le_div_iff_mul_le (by positivity), Nat.div_lt_iff_lt_mul (by positivity), ← pow_add, ← pow_add]
    rw [show u + (F.sigBits - u) = F.sigBits by omega, show u + 1 + (F.sigBits - u) = F.sigBits + 1 by omega]
    exact ⟨h1, h2⟩

/-! ## The three paths on DBG (R128) -/

section
variable {F : FloatFormat} {W : Nat} {sg : Signedness} {b : BitVec F.total}

theorem f2iTrace_of_below_bias (h : (unpack F b).exp.toNat < F.bias) :
    f2iTrace F W sg b =
      { s := some (unpack F b).sign, e := some (unpack F b).exp.toNat
        sig := some (sigWithImplicit F (unpack F b).frac), belowOne := some true } := by
  simp [f2iTrace, belowOne, h]

theorem f2iTrace_of_saturated (h : F.bias + W ≤ (unpack F b).exp.toNat) :
    f2iTrace F W sg b =
      { s := some (unpack F b).sign, e := some (unpack F b).exp.toNat
        sig := some (sigWithImplicit F (unpack F b).frac), belowOne := some false
        u := some ((unpack F b).exp.toNat - F.bias), saturated := some true } := by
  have h1 : ¬ (unpack F b).exp.toNat < F.bias := by omega
  have h2 : W ≤ (unpack F b).exp.toNat - F.bias := by omega
  simp [f2iTrace, belowOne, saturated, unbiasedExp, h1, h2]

theorem f2iTrace_of_shifted (h1 : F.bias ≤ (unpack F b).exp.toNat) (h2 : (unpack F b).exp.toNat < F.bias + W) :
    let u := (unpack F b).exp.toNat - F.bias
    let sig := sigWithImplicit F (unpack F b).frac
    f2iTrace F W sg b =
      { s := some (unpack F b).sign, e := some (unpack F b).exp.toNat, sig := some sig, belowOne := some false
        u := some u, saturated := some false, shiftLeft := some (shiftsLeft F u), shiftAmt := some (shiftAmount F u)
        mag := some (magnitude F u sig)
        clamped := some (clampChanges W sg (signedMag (unpack F b).sign (magnitude F u sig))) } := by
  have h3 : ¬ (unpack F b).exp.toNat < F.bias := by omega
  have h4 : ¬ W ≤ (unpack F b).exp.toNat - F.bias := by omega
  simp [f2iTrace, belowOne, saturated, unbiasedExp, h3, h4]

/-- RES and a valid DBG tell of the same float to integer conversion (R128). -/
theorem f2i_portsAgree (hW0 : 0 < W) (hW : W ≤ 64) (free : DbgFields) :
    F2iPortsAgree F W sg ((f2iTrace F W sg b).overlay free) (resultWord (f2i F W sg b)) := by
  unfold F2iPortsAgree
  rw [resultWord_setWidth hW]
  rcases Nat.lt_or_ge (unpack F b).exp.toNat F.bias with hlow | hbias
  · rw [f2iTrace_of_below_bias hlow, f2i_of_below_bias hlow]
    simp [DbgTrace.overlay, toBits, resultWord]
  have hu : (unpack F b).exp.toNat - F.bias + F.bias = (unpack F b).exp.toNat := Nat.sub_add_cancel hbias
  rcases Nat.lt_or_ge (unpack F b).exp.toNat (F.bias + W) with hfit | hsat
  · have huW : (unpack F b).exp.toNat - F.bias < W := by omega
    obtain ⟨hsig1, hsig2⟩ := sigWithImplicit_bounds F (unpack F b).frac
    obtain ⟨hmag1, hmag2⟩ := magnitude_bounds (u := (unpack F b).exp.toNat - F.bias) hsig1 hsig2
    obtain ⟨hlo, hhi⟩ := clamp_bounds W sg (signedMag (unpack F b).sign
      (magnitude F ((unpack F b).exp.toNat - F.bias) (sigWithImplicit F (unpack F b).frac)))
    rw [f2iTrace_of_shifted hbias hfit, f2i_of_shifted hbias hfit, intValue_toBits hW0 hlo hhi]
    refine ⟨nofun, fun _ => ⟨hu, nofun, fun _ => ⟨huW, hmag1, hmag2, fun hc => ?_, fun hc => ?_⟩⟩⟩
    · exact not_not.1 (of_decide_eq_false hc)
    · exact clamp_of_clampChanges hc
  · have hWu : W ≤ (unpack F b).exp.toNat - F.bias := by omega
    obtain ⟨hlo, hhi⟩ := extremeOf_bounds W sg (unpack F b).sign
    rw [f2iTrace_of_saturated hsat, f2i_of_saturated hsat, intValue_toBits hW0 hlo hhi]
    exact ⟨nofun, fun _ => ⟨hu, fun _ => ⟨hWu, rfl⟩, nofun⟩⟩

/-- R14's minimum widths for the fields of a float to integer conversion, as O46 lists them. -/
def F2iFieldsFit (F : FloatFormat) (W : Nat) (f : DbgFields) : Prop :=
  f.e < 2 ^ F.expBits ∧ f.sig < 2 ^ (F.sigBits + 1) ∧
  (f.belowOne = false → f.u < 2 ^ F.expBits ∧
    (f.saturated = false → f.mag < 2 ^ max W (F.sigBits + 1) ∧ f.mag < 2 ^ W))

theorem f2iTrace_fieldsFit (free : DbgFields) : F2iFieldsFit F W ((f2iTrace F W sg b).overlay free) := by
  have he := (unpack F b).exp.isLt
  obtain ⟨hsig1, hsig2⟩ := sigWithImplicit_bounds F (unpack F b).frac
  have hu : (unpack F b).exp.toNat - F.bias < 2 ^ F.expBits := (Nat.sub_le ..).trans_lt he
  rcases Nat.lt_or_ge (unpack F b).exp.toNat F.bias with hlow | hbias
  · rw [f2iTrace_of_below_bias hlow]
    exact ⟨he, hsig2, nofun⟩
  rcases Nat.lt_or_ge (unpack F b).exp.toNat (F.bias + W) with hfit | hsat
  · obtain ⟨-, hmag⟩ := magnitude_bounds (u := (unpack F b).exp.toNat - F.bias) hsig1 hsig2
    have hmagW := hmag.trans_le (Nat.pow_le_pow_right (by decide) (by omega : _ ≤ W))
    rw [f2iTrace_of_shifted hbias hfit]
    exact ⟨he, hsig2, fun _ => ⟨hu, fun _ =>
      ⟨hmagW.trans_le (Nat.pow_le_pow_right (by decide) (le_max_left ..)), hmagW⟩⟩⟩
  · rw [f2iTrace_of_saturated hsat]
    exact ⟨he, hsig2, fun _ => ⟨hu, nofun⟩⟩

end

end Sys2Proof.Machine
end

section
/-! PROOFS. What a step leaves on the ports, for every request (spec/10_state.md R12 to R14). -/

namespace Sys2Proof.Machine

theorem opIntWidth_bounds (op : BitVec 4) : 0 < opIntWidth op ∧ opIntWidth op ≤ 64 := by
  unfold opIntWidth; split <;> decide

/-- Settles O12: RES and DBG.valid by O9, and the DBG fields by the two `portsAgree` lemmas, from every state. -/
theorem stepKeepsPortsSettled : Obligations.StepKeepsPortsSettled := by
  intro s t ht
  obtain ⟨t', ht', ⟨hreq, -⟩, -, hres, hvalid⟩ := stepComputesConvert s
  obtain rfl : t' = t := Host.Outcome.next.inj (ht'.symm.trans ht)
  refine ⟨hres, by rw [hvalid, State.dbgValidPort, hreq], fun hdiag => ?_⟩
  obtain ⟨hW0, hW⟩ := opIntWidth_bounds (reqOp s.req)
  rw [hvalid] at hdiag
  rw [hreq]
  cases hdir : opDir (reqOp s.req) with
  | intToFloat =>
    rw [step_of_intToFloat hdir, runI2F_next, hdiag] at ht
    cases ht
    exact i2f_portsAgree s.config.roundRule hW ..
  | floatToInt =>
    rw [step_of_floatToInt hdir, runF2I_next, hdiag] at ht
    cases ht
    exact f2i_portsAgree hW0 hW _

/-- Settles O46: an operation of one direction makes no claim about the fields of the other. -/
theorem intermediatesFitMinimumWidths : Obligations.IntermediatesFitMinimumWidths := by
  intro s op value F W
  cases hdir : opDir op with
  | intToFloat =>
    refine ⟨_, step_present_of_intToFloat s true value hdir, fun _ => ?_, nofun⟩
    rw [State.drive_dbg, dbgPort_fields_of_diag]
    exact i2fTrace_fieldsFit _ (opIntWidth_bounds op).2 _ F _ _
  | floatToInt =>
    refine ⟨_, step_present_of_floatToInt s true value hdir, nofun, fun _ => ?_⟩
    rw [State.drive_dbg, dbgPort_fields_of_diag]
    exact f2iTrace_fieldsFit _

end Sys2Proof.Machine
end

section
/-! PROOFS. What the host reads, asking one block again or a system of blocks in any order (spec/20_memory.md R23, R24,
spec/60_exceptions.md R131, spec/70_reset_and_hazards.md R143, R146). -/

namespace Sys2Proof.Machine

/-- All a step can do to REQ, ROUND_RULE and RES: O9, read from a given answer. -/
theorem res_eq_convert_of_step {s t : State} (h : step s = .next t) :
    OnlyPortsChange s t ∧ t.res = convert s.config.roundRule s.req := by
  obtain ⟨t', ht', hports, hres, -⟩ := stepComputesConvert s
  obtain rfl : t' = t := Host.Outcome.next.inj (ht'.symm.trans h)
  exact ⟨hports, hres⟩

/-- Settles O14: both steps give CONVERT of one request under one ROUND_RULE. -/
theorem repeatedRequestRepeatsResult : Obligations.RepeatedRequestRepeatsResult := by
  intro s t hst
  obtain ⟨⟨hreq, hconfig⟩, hres⟩ := res_eq_convert_of_step hst
  obtain ⟨u, htu, ⟨hreq', -⟩, hres', -⟩ := stepComputesConvert t
  exact ⟨u, htu, by rw [hres', hres, hreq, hconfig], hreq'⟩

/-- R147: asking a block always succeeds, with CONVERT of the request, and leaves its ROUND_RULE. -/
theorem ask_eq_convert (r : Request) (s : State) :
    ∃ t, ask r s = some (convert s.config.roundRule r, t) ∧ t.config = s.config := by
  obtain ⟨t, hstep, ⟨-, hconfig⟩, hres, -⟩ := stepComputesConvert (s.present r)
  exact ⟨t, by simp [ask, hstep, hres], by simp [hconfig]⟩

theorem System.serve_nil (sys : System) : sys.serve [] = some ([], sys) := rfl

theorem System.serve_cons {sys : System} {k : Nat} {r : Request} {s t : State} {v : Word}
    (hs : sys.blocks[k]? = some s) (hask : ask r s = some (v, t)) (rest : List (Nat × Request)) :
    sys.serve ((k, r) :: rest) =
      (System.serve { blocks := sys.blocks.set k t } rest).map fun p => (v :: p.1, p.2) := by
  simp only [System.serve, hs, hask]
  cases System.serve { blocks := sys.blocks.set k t } rest <;> rfl

/-- The build parameters of the blocks, which are all of a system that its answers depend on. -/
def System.configs (sys : System) : List Config := sys.blocks.map State.config

theorem System.numBlocks_eq_length_configs (sys : System) : sys.numBlocks = sys.configs.length :=
  (List.length_map _).symm

theorem System.getElem?_configs {sys : System} {k : Nat} {s : State} (hs : sys.blocks[k]? = some s) :
    sys.configs[k]? = some s.config := by
  simp [System.configs, hs]

/-- Putting back a block of the same build leaves the build parameters of the system. -/
theorem System.configs_set {sys : System} {k : Nat} {s t : State} (hs : sys.blocks[k]? = some s)
    (hconfig : t.config = s.config) : System.configs { blocks := sys.blocks.set k t } = sys.configs := by
  obtain ⟨hk, rfl⟩ := List.getElem?_eq_some_iff.1 hs
  have hsame : t.config = (sys.blocks.map State.config)[k]'(by simpa using hk) := by simp [hconfig]
  rw [System.configs, List.map_set, hsame, List.set_getElem_self, System.configs]

/-- What a block of number `p.1` must answer to `p.2`, where the blocks are built with `cs`; `none` without that block. -/
def answerOf (cs : List Config) (p : Nat × Request) : Option Word :=
  cs[p.1]?.map fun c => convert c.roundRule p.2

/-- Serving a schedule on existing blocks keeps the build parameters, and gives the answers that these alone fix. -/
theorem System.serve_eq_answers {sys : System} {sched : List (Nat × Request)} (h : ∀ p ∈ sched, p.1 < sys.numBlocks) :
    ∃ vs sys', sys.serve sched = some (vs, sys') ∧ sys'.configs = sys.configs ∧
      vs.map some = sched.map (answerOf sys.configs) := by
  induction sched generalizing sys with
  | nil => exact ⟨[], sys, sys.serve_nil, rfl, rfl⟩
  | cons p rest ih =>
    obtain ⟨k, r⟩ := p
    obtain ⟨hk, hrest⟩ := List.forall_mem_cons.1 h
    obtain ⟨s, hs⟩ : ∃ s, sys.blocks[k]? = some s := ⟨_, List.getElem?_eq_getElem hk⟩
    obtain ⟨t, hask, hconfig⟩ := ask_eq_convert r s
    have hset := System.configs_set hs hconfig
    obtain ⟨vs, sys', hserve, hconfigs, hvs⟩ := ih (sys := { blocks := sys.blocks.set k t })
      (by simpa [System.numBlocks_eq_length_configs, hset] using hrest)
    rw [hset] at hconfigs hvs
    exact ⟨_ :: vs, sys', by rw [System.serve_cons hs hask, hserve, Option.map_some], hconfigs,
      by simp [answerOf, System.getElem?_configs hs, hvs]⟩

/-- Settles O47: the j-th result is `answerOf` of the j-th request, which looks up the block's own ROUND_RULE. -/
theorem everyScheduleGivesConvert : Obligations.EveryScheduleGivesConvert := by
  intro sys sched h
  obtain ⟨vs, sys', hserve, hconfigs, hvs⟩ := System.serve_eq_answers h
  refine ⟨vs, sys', hserve, by simp only [System.numBlocks_eq_length_configs, hconfigs],
    by simpa using congrArg List.length hvs, fun j k r s hj hk => ?_⟩
  have hget : (vs.map some)[j]? = some (some (convert s.config.roundRule r)) := by
    simp [hvs, hj, answerOf, System.getElem?_configs hk]
  simpa using hget

end Sys2Proof.Machine
end

section
/-! PROOFS. The request word and its 16 operations (spec/30_encoding.md R30 to R36): what decoding reads from each
field, and that decoding and encoding undo each other. -/

namespace Sys2Proof

/-! ## The subfields of `op` (R31) -/

variable (op : BitVec 4) (w : Request)

theorem opDir_eq_floatToInt_iff : opDir op = .floatToInt ↔ op.getLsbD 3 = true := by simp [opDir]

theorem opSgn_eq_signed_iff : opSgn op = .signed ↔ op.getLsbD 2 = true := by simp [opSgn]

theorem opIntWidth_eq_64_iff : opIntWidth op = 64 ↔ op.getLsbD 1 = true := by simp [opIntWidth]

theorem opFormat_eq_f64_iff : opFormat op = .f64 ↔ op.getLsbD 0 = true := by simp [opFormat]

theorem total_opFormat : (opFormat op).total = if op.getLsbD 0 then 64 else 32 := by
  unfold opFormat
  split <;> rfl

variable {op} in
theorem widths_of_intToFloat (h : opDir op = .intToFloat) :
    srcWidth op = opIntWidth op ∧ dstWidth op = (opFormat op).total := by
  simp [srcWidth, dstWidth, h]

variable {op} in
theorem widths_of_floatToInt (h : opDir op = .floatToInt) :
    srcWidth op = (opFormat op).total ∧ dstWidth op = opIntWidth op := by
  simp [srcWidth, dstWidth, h]

/-- Settles O3: DIR says which of the two widths is the source's. -/
theorem operationSubfieldsAndWidths : Obligations.OperationSubfieldsAndWidths := by
  intro op
  refine ⟨opDir_eq_floatToInt_iff op, opSgn_eq_signed_iff op, rfl, opFormat_eq_f64_iff op, ?_⟩
  rw [← total_opFormat, ← opIntWidth]
  cases hdir : opDir op with
  | intToFloat =>
    have h3 : op.getLsbD 3 = false := by simpa [opDir] using hdir
    rw [h3]
    exact widths_of_intToFloat hdir
  | floatToInt =>
    rw [(opDir_eq_floatToInt_iff op).1 hdir]
    exact widths_of_floatToInt hdir

theorem srcWidth_le : srcWidth op ≤ 64 := by
  obtain ⟨-, -, -, -, hsrc, -⟩ := operationSubfieldsAndWidths op
  rw [hsrc]
  split_ifs <;> decide

/-! ## Decoding reads the three fields (R30) -/

/-- An operation code is its bits DIR, SGN, IW, FF. -/
theorem op_eq_append_bits : ∀ op : BitVec 4, op = BitVec.ofBool (op.getLsbD 3) ++ BitVec.ofBool (op.getLsbD 2) ++
    BitVec.ofBool (op.getLsbD 1) ++ BitVec.ofBool (op.getLsbD 0) := by decide

theorem decode_fields :
    (decode w).diag = reqDiag w ∧ (decode w).opcode = reqOp w ∧ (decode w).value = reqValue w := by
  rw [op_eq_append_bits (reqOp w)]
  simp only [decode]
  cases (reqOp w).getLsbD 3 <;> cases (reqOp w).getLsbD 2 <;> cases (reqOp w).getLsbD 1 <;>
    cases (reqOp w).getLsbD 0 <;> exact ⟨rfl, rfl, rfl⟩

@[simp] theorem decode_diag : (decode w).diag = reqDiag w := (decode_fields w).1
@[simp] theorem decode_opcode : (decode w).opcode = reqOp w := (decode_fields w).2.1
@[simp] theorem decode_value : (decode w).value = reqValue w := (decode_fields w).2.2

/-- A bit of `op` within the request word. -/
theorem reqOp_getLsbD {i : Nat} (hi : i < 4) : (reqOp w).getLsbD i = w.getLsbD (64 + i) := by
  simp [reqOp, hi]

/-- Settles O2: the fields by the three readings above, and the subfields as bits of `op`. -/
theorem requestFieldsSelectTheOperation : Obligations.RequestFieldsSelectTheOperation := by
  intro w
  refine ⟨decode_diag w, decode_opcode w, decode_value w, ?_, ?_, ?_, ?_, fun w' hop => ?_⟩
  · rw [decode_opcode, opDir_eq_floatToInt_iff, reqOp_getLsbD w (by decide)]
  · rw [decode_opcode, opSgn_eq_signed_iff, reqOp_getLsbD w (by decide)]
  · rw [decode_opcode, opIntWidth_eq_64_iff, reqOp_getLsbD w (by decide)]
  · rw [decode_opcode, opFormat_eq_f64_iff, reqOp_getLsbD w (by decide)]
  · exact (decode_opcode w').trans (hop.trans (decode_opcode w).symm)

/-! ## Decoding and encoding undo each other (R30, R35) -/

/-- A request word is the assembly of its three fields. -/
theorem mkRequest_fields : mkRequest (reqDiag w) (reqOp w) (reqValue w) = w := by
  apply BitVec.eq_of_getLsbD_eq
  intro i hi
  rw [mkRequest_getLsbD]
  split_ifs with hvalue hop
  · simp [reqValue, hvalue]
  · rw [reqOp_getLsbD w (by omega), Nat.add_sub_cancel' (by omega)]
  · obtain rfl : i = 68 := by omega
    simp [reqDiag]

theorem encode_decode : encode (decode w) = w := by
  rw [encode, decode_diag, decode_opcode, decode_value, mkRequest_fields]

theorem decode_encode (i : Instr) : decode (encode i) = i := by
  cases i <;> simp [encode, decode, reqDiag_mkRequest, reqOp_mkRequest, reqValue_mkRequest, Instr.opcode, Instr.diag,
    Instr.value]

/-- Settles O4: every instruction is decoded back, the well-formed ones among them. -/
theorem decodeAndEncodeAreInverse : Obligations.DecodeAndEncodeAreInverse :=
  ⟨fun i _ => decode_encode i, encode_decode⟩

/-- Settles O1, on the spec's eight words. -/
theorem sampleRequestWordsDecode : Obligations.SampleRequestWordsDecode := by
  unfold Obligations.SampleRequestWordsDecode
  decide

/-! ## Numbers as request words (R35, log 12) -/

theorem decodeNat_of_lt {n : Nat} (h : n < 2 ^ 69) : decodeNat n = .ok (decode (BitVec.ofNat 69 n)) := if_pos h

theorem decodeNat_of_ge {n : Nat} (h : 2 ^ 69 ≤ n) : decodeNat n = .error .widerThanRequest := if_neg h.not_gt

/-- A table of words at least as wide as a request holds every request. -/
theorem decodeTableWord_of_lt {nbits n : Nat} (hbits : 69 ≤ nbits) (h : n < 2 ^ 69) :
    decodeTableWord nbits n = some (decode (BitVec.ofNat 69 n)) := by
  have hn : n % 2 ^ nbits = n := Nat.mod_eq_of_lt (h.trans_le (Nat.pow_le_pow_right (by decide) hbits))
  rw [decodeTableWord, hn, decodeNat_of_lt h]

/-- Settles O5: the instruction is the one whose request word is the number. -/
theorem decoderTotalOnRequestWords : Obligations.DecoderTotalOnRequestWords := by
  refine ⟨fun n h => ⟨_, decodeNat_of_lt h, ?_, decodeTableWord_of_lt (by decide) h⟩, fun n => decodeNat_of_ge⟩
  rw [encode_decode, BitVec.toNat_ofNat, Nat.mod_eq_of_lt h]

/-- Settles O6: the operand stands in the low bits of `value`, which is wide enough for every source width. -/
theorem assembledRequestReadsBack : Obligations.AssembledRequestReadsBack := by
  intro op d x
  have hvalue : (decode (assemble op d x)).value = x.setWidth 64 := by simp [assemble, reqValue_mkRequest]
  refine ⟨by simp [assemble, reqOp_mkRequest], by simp [assemble, reqDiag_mkRequest], ?_, ?_⟩
  · rw [hvalue, BitVec.setWidth_setWidth_of_le x (srcWidth_le op), BitVec.setWidth_eq]
  · rw [hvalue, BitVec.toNat_setWidth]
    exact (Nat.mod_le ..).trans_lt x.isLt

end Sys2Proof
end

section
/-! PROOFS. Every request is answered, and the halves of `value` and RES beyond a 32-bit operand or result
(spec/30_encoding.md R32, R33, R35). -/

namespace Sys2Proof.Machine

/-- Settles O8: a step by `stepComputesConvert`, and the operation of a request by decoding it. -/
theorem everyRequestIsAnswered : Obligations.EveryRequestIsAnswered := by
  refine ⟨fun s => ?_, fun d op v => ⟨_, encode_decode (mkRequest d op v)⟩⟩
  obtain ⟨t, hstep, hports, -⟩ := stepComputesConvert s
  exact ⟨t, hstep, hports⟩

/-- RES and DBG depend on `value` through its low source-width bits alone (R32). -/
theorem step_ports_of_setWidth_eq (s : State) (d : Bool) {op : BitVec 4} {v v' : Word}
    (h : v.setWidth (srcWidth op) = v'.setWidth (srcWidth op)) :
    ∃ t u, step (s.present (mkRequest d op v)) = .next t ∧ step (s.present (mkRequest d op v')) = .next u ∧
      t.res = u.res ∧ t.dbg = u.dbg := by
  cases hdir : opDir op with
  | intToFloat =>
    rw [(widths_of_intToFloat hdir).1] at h
    exact ⟨_, _, step_present_of_intToFloat s d v hdir, step_present_of_intToFloat s d v' hdir,
      by simp [h], by simp [h]⟩
  | floatToInt =>
    rw [(widths_of_floatToInt hdir).1] at h
    exact ⟨_, _, step_present_of_floatToInt s d v hdir, step_present_of_floatToInt s d v' hdir,
      by simp [h], by simp [h]⟩

/-- Settles O16: the two operand fields agree on a 32-bit source. -/
theorem upperOperandHalfIgnored : Obligations.UpperOperandHalfIgnored := by
  intro s d op v v' hsrc h
  exact step_ports_of_setWidth_eq s d (by rw [hsrc]; exact h)

/-- RES carries a result of the destination width, zero-extended (R33). -/
theorem step_res_eq_resultWord (s : State) (d : Bool) (op : BitVec 4) (v : Word) :
    ∃ t, step (s.present (mkRequest d op v)) = .next t ∧ ∃ b : BitVec (dstWidth op), t.res = resultWord b := by
  cases hdir : opDir op with
  | intToFloat =>
    rw [(widths_of_intToFloat hdir).2]
    exact ⟨_, step_present_of_intToFloat s d v hdir, _, rfl⟩
  | floatToInt =>
    rw [(widths_of_floatToInt hdir).2]
    exact ⟨_, step_present_of_floatToInt s d v hdir, _, rfl⟩

/-- The bits of RES from the result's width up are 0 (R33). -/
theorem resultWord_extractLsb'_of_le {w start : Nat} (h : w ≤ start) (len : Nat) (b : BitVec w) :
    (resultWord b).extractLsb' start len = 0 := by
  apply BitVec.eq_of_getLsbD_eq
  intro i hi
  have hge : b.getLsbD (start + i) = false := BitVec.getLsbD_of_ge b _ (by omega)
  simp [resultWord, hge]

/-- Settles O17: the upper half of RES starts where a 32-bit result ends. -/
theorem upperResultHalfZero : Obligations.UpperResultHalfZero := by
  intro s d op v hdst
  obtain ⟨t, hstep, b, hres⟩ := step_res_eq_resultWord s d op v
  exact ⟨t, hstep, by rw [hres]; exact resultWord_extractLsb'_of_le hdst.le 32 b⟩

end Sys2Proof.Machine
end

section
/-! PROOFS. The representation and the integer view (spec/40_repr_pack_unpack.md R40 to R53): pack and unpack undo each
other, a field is a slice or a masked value, and `signMag` gives the exact magnitude. -/

namespace Sys2Proof.Machine

/-! ## The masks as numbers (R42) -/

section
variable (F : FloatFormat)

theorem signMask_eq_twoPow : F.signMask = BitVec.twoPow F.total (F.total - 1) := by
  cases F <;> rfl

theorem expMask_toNat : F.expMask.toNat = (2 ^ F.expBits - 1) <<< F.sigBits := by
  cases F <;> rfl

theorem sigMask_toNat : F.sigMask.toNat = 2 ^ F.sigBits - 1 := by
  cases F <;> rfl

theorem implicitMask_toNat : F.implicitMask.toNat = 2 ^ F.sigBits := by
  cases F <;> rfl

end

/-! ## Pack and unpack (R43 to R47) -/

/-- R41: EMAX is the greatest value of the exponent field. -/
theorem le_emax_iff {F : FloatFormat} {e : Nat} : e ≤ F.emax ↔ e < 2 ^ F.expBits :=
  Nat.le_sub_one_iff_lt (Nat.two_pow_pos _)

/-- Settles O20: the widths of the fields' types are exactly the ranges of R44. -/
theorem fromPartsPacksFields : Obligations.FromPartsPacksFields :=
  ⟨fun _ p => ⟨fromParts_toNat p, le_emax_iff.2 p.exp.isLt, p.frac.isLt⟩,
    fun _ s e frac he hfrac =>
      ⟨⟨s, BitVec.ofNatLT e (le_emax_iff.1 he), BitVec.ofNatLT frac hfrac⟩, rfl, rfl, rfl⟩⟩

section
variable {F : FloatFormat} (b : BitVec F.total)

theorem unpack_sign_iff_signMask : (unpack F b).sign = true ↔ b &&& F.signMask ≠ 0 := by
  have hne : F.signMask ≠ 0 := by cases F <;> decide
  have hand : b &&& F.signMask = if (unpack F b).sign then F.signMask else 0 := by
    rw [signMask_eq_twoPow]
    exact BitVec.and_twoPow b _
  rw [hand]
  cases (unpack F b).sign with
  | false => simp
  | true => simpa using hne

theorem unpack_exp_toNat_eq_expMask : (unpack F b).exp.toNat = ((b &&& F.expMask) >>> F.sigBits).toNat := by
  rw [BitVec.toNat_ushiftRight, BitVec.toNat_and, expMask_toNat, Nat.shiftRight_and_distrib, Nat.shiftLeft_shiftRight,
    Nat.and_two_pow_sub_one_eq_mod, unpack, BitVec.extractLsb'_toNat]

theorem unpack_frac_toNat_eq_sigMask : (unpack F b).frac.toNat = (b &&& F.sigMask).toNat := by
  rw [BitVec.toNat_and, sigMask_toNat, Nat.and_two_pow_sub_one_eq_mod, unpack, BitVec.extractLsb'_toNat,
    Nat.shiftRight_zero]

/-- The three slices of a pattern are adjacent and cover it. -/
theorem fromParts_unpack : fromParts F (unpack F b) = b := by
  have hsign : BitVec.ofBool (b.getLsbD (F.total - 1)) = b.extractLsb' (F.sigBits + F.expBits) 1 := by
    rw [show F.total - 1 = F.sigBits + F.expBits by simp only [FloatFormat.total]; omega]
    ext i hi
    simp [Nat.lt_one_iff.1 hi]
  simp only [fromParts, unpack]
  rw [hsign, BitVec.extractLsb'_append_extractLsb'_eq_extractLsb' rfl,
    BitVec.extractLsb'_append_extractLsb'_eq_extractLsb' (by simp)]
  exact BitVec.extractLsb'_eq_self

end

/-- Settles O21: a slice of the pattern is a masked value shifted down, and packing joins the slices again. -/
theorem unpackIsTheInverseOfPack : Obligations.UnpackIsTheInverseOfPack :=
  ⟨fun _ b => ⟨rfl, unpack_sign_iff_signMask b, rfl, unpack_exp_toNat_eq_expMask b, rfl,
    unpack_frac_toNat_eq_sigMask b, fromParts_unpack b⟩, fun _ => unpack_fromParts⟩

/-- R47: the implicit bit lies above the significand field, so adding it is a bitwise OR. -/
theorem sigWithImplicit_eq_or (F : FloatFormat) (frac : BitVec F.sigBits) :
    sigWithImplicit F frac = frac.toNat ||| F.implicitMask.toNat := by
  have hor := Nat.two_pow_add_eq_or_of_lt frac.isLt 1
  rw [mul_one] at hor
  rw [sigWithImplicit, hor, implicitMask_toNat, Nat.lor_comm]

/-- Settles O22: the implicit bit is the one bit above the significand field. -/
theorem implicitBitForcedSet : Obligations.ImplicitBitForcedSet :=
  fun F frac => ⟨rfl, sigWithImplicit_eq_or F frac, sigWithImplicit_bounds F frac⟩

/-! ## The integer view (R50 to R53) -/

/-- Settles O23: `payloadLen` is the bit length `Nat.size` of the library. -/
theorem payloadLenIsBitLength : Obligations.PayloadLenIsBitLength := by
  intro W m h0 h
  obtain ⟨hpos, hlow, hhigh⟩ := size_bounds h0
  refine ⟨rfl, ?_⟩
  rw [payloadLen_eq_size h0 h]
  exact ⟨hpos, Nat.size_le.2 h, hlow, hhigh⟩

section
variable {W : Nat} {x : BitVec W}

theorem signMag_signed_of_msb (h : x.getLsbD (W - 1) = true) : signMag W .signed x = (true, (-x).toNat) := by
  rw [signMag, if_pos h, BitVec.toNat_neg]

theorem signMag_signed_of_not_msb (h : x.getLsbD (W - 1) = false) : signMag W .signed x = (false, x.toNat) := by
  simp [signMag, h]

theorem signMag_signed_sign (x : BitVec W) : (signMag W .signed x).1 = x.getLsbD (W - 1) := by
  cases h : x.getLsbD (W - 1) with
  | false => rw [signMag_signed_of_not_msb h]
  | true => rw [signMag_signed_of_msb h]

/-- R55 (b): the magnitude of a signed operand is |x|, for the most negative one too. -/
theorem signMag_signed_eq_abs (x : BitVec W) : ((signMag W .signed x).2 : ℤ) = |x.toInt| := by
  cases h : x.getLsbD (W - 1) with
  | false =>
    rw [signMag_signed_of_not_msb h, BitVec.toInt_eq_toNat_of_msb (by rwa [BitVec.msb_eq_getLsbD_last]), Nat.abs_cast]
  | true =>
    rw [signMag_signed_of_msb h, BitVec.toInt_eq_neg_toNat_neg_of_msb_true (by rwa [BitVec.msb_eq_getLsbD_last]),
      abs_neg, Nat.abs_cast]

theorem signMag_signed_le (x : BitVec W) : (signMag W .signed x).2 ≤ 2 ^ (W - 1) := by
  have habs : |x.toInt| ≤ 2 ^ (W - 1) := abs_le.2 ⟨BitVec.le_toInt x, by have := BitVec.toInt_le (x := x); omega⟩
  rw [← signMag_signed_eq_abs] at habs
  exact_mod_cast habs

/-- R51: the most negative operand is its own negation, so its magnitude is 2^(W-1). -/
theorem signMag_signed_of_most_negative (hW : 0 < W) (h : x.toNat = 2 ^ (W - 1)) :
    (signMag W .signed x).2 = 2 ^ (W - 1) := by
  have hx : x = BitVec.intMin W := BitVec.eq_of_toNat_eq (by rw [h, BitVec.toNat_intMin_of_pos hW])
  have hmsb : x.getLsbD (W - 1) = true := by
    rw [← BitVec.msb_eq_getLsbD_last, hx, BitVec.msb_intMin, decide_eq_true hW]
  rw [signMag_signed_of_msb hmsb, hx, BitVec.neg_intMin, ← hx, h]

end

/-- Settles O24: by the sign bit, on which the negated vector is taken. -/
theorem signAndMagnitudeExact : Obligations.SignAndMagnitudeExact := by
  intro W x hW
  refine ⟨rfl, signMag_signed_sign x, fun h => ?_, fun h => ⟨?_, ?_⟩, signMag_signed_of_most_negative hW,
    signMag_signed_eq_abs x, x.isLt, signMag_signed_le x⟩
  · rw [signMag_signed_of_not_msb h]
  · rw [signMag_signed_of_msb h, BitVec.toNat_neg]
  · rw [signMag_signed_of_msb h, BitVec.neg_eq_not_add]
    rfl

/-! ## Constants (R40 to R42, R53) -/

/-- Settles O19: the formulas by definition, the numbers by evaluation. -/
theorem formatConstants : Obligations.FormatConstants :=
  ⟨fun _ => ⟨rfl, rfl⟩, by decide⟩

/-- Settles O25: the formulas by definition, the vectors by evaluation. -/
theorem destinationExtremes : Obligations.DestinationExtremes :=
  ⟨fun _ => ⟨rfl, rfl, rfl, rfl⟩, by decide⟩

end Sys2Proof.Machine
end

section
/-! PROOFS. Integer to float (spec/41_int_to_fp.md R60 to R72): the integer an operand stands for, the engine's error on
its magnitude, the answers of the eight operations, and the mirror of a negative operand. -/

namespace Sys2Proof.Machine

theorem InScopeWidth.le_64 {W : Nat} (h : InScopeWidth W) : W ≤ 64 := by
  rcases h with rfl | rfl <;> decide

/-! ## The operand as sign and magnitude (R51) -/

section
variable {W : Nat} (sg : Signedness) (x : BitVec W)

/-- R55 (b): sign and magnitude together are the integer the operand stands for. -/
theorem intValue_eq_signedMag : intValue sg x = signedMag (signMag W sg x).1 (signMag W sg x).2 := by
  cases sg with
  | unsigned => rfl
  | signed =>
    cases h : x.getLsbD (W - 1) with
    | false =>
      rw [signMag_signed_of_not_msb h]
      exact BitVec.toInt_eq_toNat_of_msb (by rwa [BitVec.msb_eq_getLsbD_last])
    | true =>
      rw [signMag_signed_of_msb h]
      exact BitVec.toInt_eq_neg_toNat_neg_of_msb_true (by rwa [BitVec.msb_eq_getLsbD_last])

theorem natAbs_signedMag (s : Bool) (m : Nat) : (signedMag s m).natAbs = m := by
  cases s <;> simp [signedMag]

theorem natAbs_intValue : (intValue sg x).natAbs = (signMag W sg x).2 := by
  rw [intValue_eq_signedMag, natAbs_signedMag]

theorem intValue_ne_zero_iff : intValue sg x ≠ 0 ↔ x ≠ 0 := by
  constructor
  · rintro h rfl
    cases sg <;> simp [intValue] at h
  · intro hx
    rw [← Int.natAbs_ne_zero, natAbs_intValue]
    exact signMag_ne_zero sg hx

end

/-! ## The engine's error on a magnitude (R86, R90) -/

/-- R86: with nothing in the guard field neither rule rounds up. -/
theorem roundUp_of_guard_eq_zero (r : RoundRule) {w : Nat} (h : w % 8 = 0) : roundUp r w = false := by
  cases r <;> simp only [roundUp, decide_eq_false_iff_not] <;> omega

/-- A magnitude of at most M+1 bits stands whole above the guard field. -/
theorem keptRounded_of_size_le (r : RoundRule) {F : FloatFormat} {n m : Nat} (hn : n ≤ F.sigBits + 1) :
    keptRounded r (aligned F n m) = m * 2 ^ (F.sigBits + 1 - n) := by
  have hw : aligned F n m = m * 2 ^ (F.sigBits + 1 - n) * 8 := by
    rw [aligned_left (by omega), show F.sigBits + 4 - n = F.sigBits + 1 - n + 3 by omega, pow_add, mul_assoc]
    rfl
  rw [keptRounded_eq, roundUp_of_guard_eq_zero r (by omega), hw]
  simp

/-- A longer magnitude keeps its quotient by the unit 2^(n-M-1), or one more, the quotient itself when nothing is
discarded. -/
theorem keptRounded_of_size_ge (r : RoundRule) {F : FloatFormat} {n m : Nat} (hn : F.sigBits + 1 ≤ n) :
    let D := 2 ^ (n - (F.sigBits + 1))
    ∃ up : Bool, keptRounded r (aligned F n m) = m / D + up.toNat ∧ (m % D = 0 → up = false) := by
  obtain ⟨hdiv, -, hguard⟩ := aligned_spec (m := m) hn
  exact ⟨_, by rw [keptRounded_eq, hdiv], fun h => roundUp_of_guard_eq_zero r (hguard.2 h)⟩

/-- A quotient rounded down or up is less than one divisor away, and exact when nothing is discarded. -/
theorem abs_rounded_quotient_sub_lt {m D : Nat} (hD : 0 < D) {up : Bool} (hup : m % D = 0 → up = false) :
    |(((m / D + up.toNat : ℕ) : ℚ) * D - m)| < D ∧ (D ∣ m → ((m / D + up.toNat : ℕ) : ℚ) * D = m) := by
  have hlt : ((m % D : ℕ) : ℚ) < D := by exact_mod_cast Nat.mod_lt m hD
  have herr : ((m / D + up.toNat : ℕ) : ℚ) * D - m = up.toNat * D - (m % D : ℕ) := by
    have hm : (D : ℚ) * (m / D : ℕ) + (m % D : ℕ) = m := by exact_mod_cast Nat.div_add_mod m D
    push_cast
    linarith
  by_cases hmod : m % D = 0
  · have hexact : ((m / D + up.toNat : ℕ) : ℚ) * D = m := by
      rw [← sub_eq_zero, herr, hup hmod, hmod]
      simp
    exact ⟨by rw [sub_eq_zero.2 hexact, abs_zero]; exact_mod_cast hD, fun _ => hexact⟩
  · have hpos : (0 : ℚ) < (m % D : ℕ) := by exact_mod_cast Nat.pos_of_ne_zero hmod
    refine ⟨?_, fun hdvd => absurd (Nat.mod_eq_zero_of_dvd hdvd) hmod⟩
    rw [herr, abs_lt]
    cases up with
    | false =>
      rw [Bool.toNat_false, Nat.cast_zero]
      constructor <;> linarith
    | true =>
      rw [Bool.toNat_true, Nat.cast_one]
      constructor <;> linarith

/-- R90 (c), (e): the kept significand at the weight of its lowest bit is less than one such unit from the magnitude,
and equal to it when no 1 is discarded. -/
theorem abs_keptRounded_mul_unit_sub_lt (r : RoundRule) (F : FloatFormat) (n m : Nat) :
    let unit := (2 : ℚ) ^ ((n : ℤ) - F.sigBits - 1)
    |(keptRounded r (aligned F n m) : ℚ) * unit - m| < unit ∧
      (2 ^ (n - (F.sigBits + 1)) ∣ m → (keptRounded r (aligned F n m) : ℚ) * unit = m) := by
  intro unit
  have hunit : 0 < unit := by positivity
  rcases le_total n (F.sigBits + 1) with hn | hn
  · have hexact : (keptRounded r (aligned F n m) : ℚ) * unit = m := by
      have hexp : (n : ℤ) - F.sigBits - 1 = -((F.sigBits + 1 - n : ℕ) : ℤ) := by omega
      simp only [unit, hexp, keptRounded_of_size_le r hn, zpow_neg, zpow_natCast, Nat.cast_mul, Nat.cast_pow,
        Nat.cast_ofNat]
      exact mul_inv_cancel_right₀ (by positivity) _
    exact ⟨by simpa [hexact] using hunit, fun _ => hexact⟩
  · have hexp : (n : ℤ) - F.sigBits - 1 = ((n - (F.sigBits + 1) : ℕ) : ℤ) := by omega
    have hD : unit = ((2 ^ (n - (F.sigBits + 1)) : ℕ) : ℚ) := by
      simp only [unit, hexp, zpow_natCast, Nat.cast_pow, Nat.cast_ofNat]
    obtain ⟨up, hkept, hup⟩ := keptRounded_of_size_ge (m := m) r hn
    rw [hkept, hD]
    exact abs_rounded_quotient_sub_lt (Nat.two_pow_pos _) hup

/-! ## The result as a pattern (R61, R90) -/

/-- R48: an exponent strictly between 0 and EMAX is that of a normal number. -/
theorem classify_of_exp {F : FloatFormat} {b : BitVec F.total} (h0 : 0 < (unpack F b).exp.toNat)
    (hmax : (unpack F b).exp.toNat < F.emax) : classify F b = .normal (normalValue F b) := by
  have hexp : (unpack F b).exp ≠ 0 := fun h => by simp [h] at h0
  simp only [classify, if_neg hmax.ne, if_neg hexp]

section
variable (r : RoundRule) (F : FloatFormat) {W m : Nat} (s : Bool) (hW : W ≤ 64) (h0 : m ≠ 0) (h : m < 2 ^ W)
include hW h0 h

/-- R90 (b): the exponent of the engine's result is a normal number's. -/
theorem normRound_exp_bounds : 0 < (unpack F (normRound r F W s m)).exp.toNat ∧
    (unpack F (normRound r F W s m)).exp.toNat < F.emax := by
  obtain ⟨p, hp, -, hexp, -⟩ := normRound_parts r F s hW h0 h
  obtain ⟨hbias, hemax, -⟩ := bias_facts F
  obtain ⟨hn, -, -⟩ := size_bounds h0
  have hsize : Nat.size m ≤ W := Nat.size_le.2 h
  rw [hp, unpack_fromParts, hexp]
  split <;> omega

theorem classify_normRound :
    classify F (normRound r F W s m) = .normal (normalValue F (normRound r F W s m)) := by
  obtain ⟨hpos, hmax⟩ := normRound_exp_bounds r F s hW h0 h
  exact classify_of_exp hpos hmax

/-- R86, R90 (c): the engine rounds the integer of sign `s` and magnitude `m` by less than one unit, under either
rule. -/
theorem normRound_roundedWithinUnit : RoundedWithinUnit F (signedMag s m) (normRound r F W s m) := by
  obtain ⟨hn, hl, hu⟩ := size_bounds h0
  obtain ⟨hw1, hw2⟩ := aligned_bounds (F := F) hn hl hu
  obtain ⟨hkept, -⟩ := kept_bounds r hw1 hw2
  obtain ⟨herr, hexact⟩ := abs_keptRounded_mul_unit_sub_lt r F (Nat.size m) m
  have hpos : 0 < keptRounded r (aligned F (Nat.size m) m) := (Nat.two_pow_pos _).trans_le hkept
  have hmag : 0 < (keptRounded r (aligned F (Nat.size m) m) : ℚ) * 2 ^ ((Nat.size m : ℤ) - F.sigBits - 1) := by
    positivity
  refine ⟨fun hzero => absurd (natAbs_signedMag s m) (by simpa [hzero] using h0.symm), fun _ =>
    ⟨_, classify_normRound r F s hW h0 h, ?_⟩⟩
  rw [normalValue_normRound r F s hW h0 h, unitOf, ConvertsExactly, natAbs_signedMag, mul_assoc]
  generalize (keptRounded r (aligned F (Nat.size m) m) : ℚ) * (2 : ℚ) ^ ((Nat.size m : ℤ) - F.sigBits - 1) = v at *
  cases s with
  | false =>
    simp only [signedMag, Bool.false_eq_true, if_false, one_mul, Int.cast_natCast]
    exact ⟨herr, iff_of_false hmag.not_gt (by omega), hexact⟩
  | true =>
    simp only [signedMag, if_true, neg_one_mul, Int.cast_neg, Int.cast_natCast]
    refine ⟨?_, iff_of_true (by linarith) (by omega), fun hdvd => by rw [hexact hdvd]⟩
    rwa [neg_sub_neg, abs_sub_comm]

end

theorem i2f_roundedWithinUnit (r : RoundRule) {W : Nat} (hW : W ≤ 64) (sg : Signedness) (F : FloatFormat)
    (x : BitVec W) : RoundedWithinUnit F (intValue sg x) (i2f r W sg F x) := by
  by_cases hx : x = 0
  · subst hx
    exact ⟨fun _ => i2f_zero r W sg F, fun h => absurd rfl ((intValue_ne_zero_iff sg _).1 h)⟩
  · rw [i2f_of_ne_zero r sg F hx, intValue_eq_signedMag]
    exact normRound_roundedWithinUnit r F _ hW (signMag_ne_zero sg hx) (signMag_lt sg x)

theorem unpack_zero (F : FloatFormat) : unpack F 0 = ⟨false, 0, 0⟩ := by
  cases F <;> decide

theorem unpack_signMask (F : FloatFormat) : unpack F F.signMask = ⟨true, 0, 0⟩ := by
  cases F <;> decide

/-- Settles O29: a nonzero operand gives a positive exponent, which neither zero has. -/
theorem zeroOperandGivesPositiveZero : Obligations.ZeroOperandGivesPositiveZero := by
  intro r W sg F x hW
  constructor
  · rintro rfl
    exact ⟨i2f_zero r W sg F, by rw [i2f_zero, unpack_zero]⟩
  · intro hx
    have hpos : 0 < (unpack F (i2f r W sg F x)).exp.toNat := by
      rw [i2f_of_ne_zero r sg F hx]
      exact (normRound_exp_bounds r F _ hW.le_64 (signMag_ne_zero sg hx) (signMag_lt sg x)).1
    constructor <;> intro h <;> rw [h] at hpos
    · rw [unpack_zero] at hpos
      exact absurd hpos (lt_irrefl 0)
    · rw [unpack_signMask] at hpos
      exact absurd hpos (lt_irrefl 0)

/-! ## The answers of the operations (R64 to R71) -/

section
variable {i : Instr} {s : State} {F : FloatFormat} {W : Nat} {sg : Signedness}

/-- An operation that converts an integer is answered, and RES carries its pattern (R33, R60). -/
theorem answersFloat_of_exec {x : BitVec W} {P : BitVec F.total → Prop} (h : exec i s = runI2F W sg F x i.diag s)
    (hP : P (i2f s.config.roundRule W sg F x)) : AnswersFloat i s F P :=
  ⟨_, _, h.trans runI2F_next, drive_onlyPortsChange .., rfl, resultWord_toNat (by cases F <;> decide) _, hP⟩

/-- An operation that converts a pattern is answered, and RES carries its integer (R33, R100). -/
theorem answersInt_of_exec {b : BitVec F.total} {P : BitVec W → Prop} (hW : W ≤ 64)
    (h : exec i s = runF2I F W sg b i.diag s) (hP : P (f2i F W sg b)) : AnswersInt i s W P :=
  ⟨_, _, h.trans runF2I_next, drive_onlyPortsChange .., rfl, resultWord_toNat hW _, hP⟩

theorem AnswersFloat.imp {P Q : BitVec F.total → Prop} (h : AnswersFloat i s F P) (hPQ : ∀ b, P b → Q b) :
    AnswersFloat i s F Q := by
  obtain ⟨t, b, hexec, hframe, hvalid, hres, hP⟩ := h
  exact ⟨t, b, hexec, hframe, hvalid, hres, hPQ b hP⟩

theorem answersWithinUnit_of_exec {x : BitVec W} (hW : W ≤ 64) (h : exec i s = runI2F W sg F x i.diag s) :
    AnswersFloat i s F (RoundedWithinUnit F (intValue sg x)) :=
  answersFloat_of_exec h (i2f_roundedWithinUnit _ hW sg F x)

end

/-- Settles O31: each arm is one conversion, which rounds within a unit. -/
theorem intToFloatAnswersWithinUnit : Obligations.IntToFloatAnswersWithinUnit := by
  intro s d v
  rw [← operand32_eq_setWidth, ← operand64_eq v]
  have h32 : 32 ≤ 64 := by decide
  exact ⟨answersWithinUnit_of_exec h32 (exec_i2fU32F32 ..), answersWithinUnit_of_exec h32 (exec_i2fU32F64 ..),
    answersWithinUnit_of_exec le_rfl (exec_i2fU64F32 ..), answersWithinUnit_of_exec le_rfl (exec_i2fU64F64 ..),
    answersWithinUnit_of_exec h32 (exec_i2fS32F32 ..), answersWithinUnit_of_exec h32 (exec_i2fS32F64 ..),
    answersWithinUnit_of_exec le_rfl (exec_i2fS64F32 ..), answersWithinUnit_of_exec le_rfl (exec_i2fS64F64 ..)⟩

/-- A 32-bit magnitude fits the 53 bits of an F64 significand. -/
theorem convertsExactly_f64_of_32 (sg : Signedness) (x : BitVec 32) : ConvertsExactly .f64 (intValue sg x) := by
  have hsize : Nat.size (intValue sg x).natAbs ≤ 32 := by
    rw [natAbs_intValue]
    exact Nat.size_le.2 (signMag_lt sg x)
  rw [ConvertsExactly, Nat.sub_eq_zero_of_le (hsize.trans (by decide)), pow_zero]
  exact one_dvd _

/-- A pattern within a unit of an operand that converts exactly stands for the operand. -/
theorem RoundedWithinUnit.classify_eq {F : FloatFormat} {W : Nat} {sg : Signedness} {x : BitVec W}
    {b : BitVec F.total} (h : RoundedWithinUnit F (intValue sg x) b) (hexact : ConvertsExactly F (intValue sg x)) :
    (x = 0 → b = 0) ∧ (x ≠ 0 → classify F b = .normal (intValue sg x)) := by
  obtain ⟨hzero, hnonzero⟩ := h
  constructor
  · exact fun hx => hzero (not_not.1 fun h => (intValue_ne_zero_iff sg x).1 h hx)
  · intro hx
    obtain ⟨v, hclass, -, -, hv⟩ := hnonzero ((intValue_ne_zero_iff sg x).2 hx)
    rw [hclass, hv hexact]

/-- Settles O33: by O31, since a 32-bit operand always converts exactly to F64. -/
theorem int32ToFloat64IsExact : Obligations.Int32ToFloat64IsExact := by
  intro s d v
  obtain ⟨-, hU, -, -, -, hS, -, -⟩ := intToFloatAnswersWithinUnit s d v
  exact ⟨hU.imp fun _ h => h.classify_eq (convertsExactly_f64_of_32 _ _),
    hS.imp fun _ h => h.classify_eq (convertsExactly_f64_of_32 _ _)⟩

/-! ## The mirror of a negative operand (R63) -/

/-- The sign bit is flipped by XOR with SIGN_MASK (R42, R44). -/
theorem fromParts_not_sign (F : FloatFormat) (s : Bool) (e : BitVec F.expBits) (f : BitVec F.sigBits) :
    fromParts F ⟨!s, e, f⟩ = fromParts F ⟨s, e, f⟩ ^^^ F.signMask := by
  have hmask : F.signMask = fromParts F ⟨true, 0, 0⟩ := by rw [← unpack_signMask, fromParts_unpack]
  rw [hmask, fromParts, fromParts, fromParts, BitVec.xor_append, BitVec.xor_append, BitVec.ofBool_xor_ofBool,
    Bool.xor_true]
  simp only [BitVec.ofNat_eq_ofNat, BitVec.xor_zero]

/-- R80 to R89: the engine hands the sign to the packing alone. -/
theorem normRound_not_sign (r : RoundRule) (F : FloatFormat) (W : Nat) (s : Bool) (m : Nat) :
    normRound r F W (!s) m = normRound r F W s m ^^^ F.signMask := by
  unfold normRound packRounded infinity
  dsimp only
  split_ifs <;> exact fromParts_not_sign ..

section
variable (r : RoundRule) {W : Nat} (F : FloatFormat) {x : BitVec W}

theorem i2f_signed_of_neg (hx : x.toInt < 0) : i2f r W .signed F x = i2f r W .unsigned F (-x) ^^^ F.signMask := by
  have hmsb : x.getLsbD (W - 1) = true := by
    rwa [← BitVec.msb_eq_getLsbD_last, BitVec.msb_eq_toInt, decide_eq_true_eq]
  have hne : x ≠ 0 := by rintro rfl; simp at hx
  rw [i2f_of_ne_zero r _ F hne, i2f_of_ne_zero r _ F (neg_ne_zero.2 hne), signMag_signed_of_msb hmsb]
  exact normRound_not_sign r F W false _

theorem i2f_signed_of_nonneg (hx : 0 ≤ x.toInt) : i2f r W .signed F x = i2f r W .unsigned F x := by
  have hmsb : x.getLsbD (W - 1) = false := by
    rw [← BitVec.msb_eq_getLsbD_last, BitVec.msb_eq_toInt, decide_eq_false_iff_not]
    exact hx.not_gt
  rw [i2f, i2f, signMag_signed_of_not_msb hmsb, signMag]

end

/-- A positive operand has a negation of its width, for only the most negative one has none (R51). -/
theorem toInt_neg_of_pos {W : Nat} {x : BitVec W} (hx : 0 < x.toInt) : (-x).toInt = -x.toInt := by
  refine BitVec.toInt_neg_of_ne_intMin ?_
  rintro rfl
  rw [BitVec.toInt_intMin] at hx
  omega

/-- Settles O37: by the sign bit; a negated positive operand is a negative one whose magnitude is the operand. -/
theorem negativeOperandMirrorsPositive : Obligations.NegativeOperandMirrorsPositive := by
  intro r W F x _
  refine ⟨i2f_signed_of_neg r F, i2f_signed_of_nonneg r F, fun hx => ?_⟩
  rw [i2f_signed_of_neg r F (x := -x) (by rw [toInt_neg_of_pos hx]; omega), neg_neg, i2f_signed_of_nonneg r F hx.le]

/-! ## The source's cases (R72, R107, R113) -/

/-- -1 converts exactly, so ROUND_RULE does not show (E2). -/
theorem i2f_neg_one (r : RoundRule) : i2f r 32 .signed .f32 0xFFFFFFFF#32 = 0xBF800000#32 := by
  cases r <;> decide

/-- Settles O18, on the spec's eight operands. -/
theorem sourceConcreteCases : Obligations.SourceConcreteCases := by
  intro s d
  exact ⟨answersFloat_of_exec (exec_i2fS32F32 ..) (i2f_zero ..),
    answersFloat_of_exec (exec_i2fS32F32 ..) (i2f_neg_one _),
    answersInt_of_exec (by decide) (exec_f2iF32S32 ..) (by decide),
    answersInt_of_exec (by decide) (exec_f2iF32S32 ..) (by decide),
    answersInt_of_exec (by decide) (exec_f2iF32S32 ..) (by decide),
    answersInt_of_exec (by decide) (exec_f2iF32S32 ..) (by decide),
    answersInt_of_exec (by decide) (exec_f2iF32U32 ..) (by decide),
    answersInt_of_exec (by decide) (exec_f2iF64S64 ..) (by decide)⟩

end Sys2Proof.Machine
end

section
/-! PROOFS. The rounding engine stage by stage (spec/42_normalize_round.md R83 to R90): the alignment and its sticky bit,
the two rounding predicates, the increment with its carry, and the fields of a nonzero result. -/

namespace Sys2Proof.Machine

/-! ## The alignment (R83 to R85) -/

section
variable {F : FloatFormat} {n m : Nat}

theorem alignSticky_of_lt_workW (h : n < F.workW) : alignSticky F n m = false :=
  if_pos (decide_eq_true h)

theorem alignSticky_of_workW_le (h : F.workW ≤ n) : alignSticky F n m = stickyOut m (n - F.workW) := by
  have hright : ¬ alignsLeft F n = true := by simpa [alignsLeft] using h
  rw [alignSticky, alignAmount, if_neg hright, if_neg hright]

theorem aligned_of_workW_le (h : F.workW ≤ n) :
    aligned F n m = (m / 2 ^ (n - F.workW)) ||| (alignSticky F n m).toNat := by
  rw [alignSticky_of_workW_le h]
  exact aligned_right h

/-- R84: bit 0 collects the last kept bit and everything shifted out. -/
theorem aligned_testBit_zero_of_workW_le (h : F.workW ≤ n) :
    (aligned F n m).testBit 0 = true ↔ m.testBit (n - F.workW) = true ∨ m % 2 ^ (n - F.workW) ≠ 0 := by
  have hbit : ∀ b : Bool, b.toNat.testBit 0 = b := by decide
  rw [aligned_of_workW_le h, Nat.testBit_or, Nat.testBit_div_two_pow, zero_add, hbit, alignSticky_of_workW_le h,
    Bool.or_eq_true, stickyOut, decide_eq_true_eq]

/-- R84 (D10): a shift by 0 discards nothing. -/
theorem aligned_workW : alignSticky F F.workW m = false ∧ aligned F F.workW m = m := by
  have hsticky : alignSticky F F.workW m = false := by
    rw [alignSticky_of_workW_le le_rfl, Nat.sub_self]
    simp [stickyOut, Nat.mod_one]
  refine ⟨hsticky, ?_⟩
  rw [aligned_of_workW_le le_rfl, hsticky, Nat.sub_self, pow_zero, Nat.div_one]
  exact Nat.or_zero m

end

/-- Settles O26: one lemma per branch of the alignment, and the leading 1 by the bounds of the work register. -/
theorem alignmentPutsLeadingOneOnTop : Obligations.AlignmentPutsLeadingOneOnTop := by
  intro F W m hm hlt n k w
  have h0 : m ≠ 0 := Nat.one_le_iff_ne_zero.1 hm
  have hsize : n = Nat.size m := payloadLen_eq_size h0 hlt
  have hnW : n ≤ W := hsize ▸ Nat.size_le.2 hlt
  have hkW : k ≤ W - F.workW := Nat.sub_le_sub_right hnW _
  obtain ⟨hn, hl, hu⟩ := size_bounds h0
  rw [← hsize] at hn hl hu
  obtain ⟨hw1, hw2⟩ := aligned_bounds (F := F) hn hl hu
  refine ⟨rfl, fun hleft => ⟨aligned_left hleft, alignSticky_of_lt_workW hleft⟩, fun hright => ⟨hkW, ?_,
    aligned_of_workW_le hright, aligned_testBit_zero_of_workW_le hright, fun hk => ?_⟩,
    fun hW hF => hkW.trans ?_, fun hW hF => hkW.trans ?_, fun hW hF => hkW.trans ?_, fun hW hF => hnW.trans_lt ?_,
    Nat.testBit_of_two_pow_le_and_two_pow_add_one_gt hw1 hw2, hw1, hw2, workReg_eq hn hl hu⟩
  · rw [alignSticky_of_workW_le hright, stickyOut, decide_eq_true_eq]
  · have hn' : n = F.workW := le_antisymm (Nat.sub_eq_zero_iff_le.1 hk) hright
    simp only [w, hn']
    exact aligned_workW
  all_goals subst hW hF; decide

/-! ## The rounding predicates (R86) -/

/-- R86 (D9): the low four bits exceed 1000b when bit 3 is 1 and the guard field is not 0. -/
theorem roundUp_literalLow4_iff (w : Nat) :
    roundUp .literalLow4 w = true ↔ w / 8 % 2 = 1 ∧ w % 8 ≠ 0 := by
  simp only [roundUp, decide_eq_true_eq]
  omega

theorem roundUp_halfDownG3_iff (w : Nat) : roundUp .halfDownG3 w = true ↔ 4 < w % 8 :=
  decide_eq_true_iff

/-- R86's example, 2^26 + 7 to F32: the guard field is 7 and the lowest kept bit 0. -/
theorem i2f_two_pow_26_add_7 :
    i2f .literalLow4 32 .unsigned .f32 0x04000007 = fromParts .f32 ⟨false, 153#8, 0#23⟩ ∧
    i2f .halfDownG3 32 .unsigned .f32 0x04000007 = fromParts .f32 ⟨false, 153#8, 1#23⟩ := by decide

/-- Settles O27: the predicates by arithmetic on the low bits, the example by running the conversion. -/
theorem roundingPredicates : Obligations.RoundingPredicates := by
  obtain ⟨hliteral, hhalf⟩ := i2f_two_pow_26_add_7
  have hbias : FloatFormat.f32.bias = 127 := rfl
  refine ⟨fun w => ⟨roundUp_halfDownG3_iff w, decide_eq_true_iff, ?_, fun h =>
    ⟨roundUp_of_guard_eq_zero _ h, roundUp_of_guard_eq_zero _ h⟩, fun h => ?_⟩, ?_, ?_⟩
  · rw [roundUp_literalLow4_iff, Nat.testBit_eq_decide_div_mod_eq, decide_eq_true_eq]
  · rw [← Bool.not_eq_true, roundUp_halfDownG3_iff, h]
    decide
  · rw [hliteral, normalValue_fromParts, hbias]
    norm_num
  · rw [hhalf, normalValue_fromParts, hbias]
    norm_num

/-! ## The increment and its carry (R87 to R89) -/

theorem carryOut_keptRounded_iff (r : RoundRule) {F : FloatFormat} {w : Nat} (h : w < 2 ^ (F.sigBits + 4)) :
    carryOut F (keptRounded r w) = true ↔ w / 8 = 2 ^ (F.sigBits + 1) - 1 ∧ roundUp r w = true := by
  rw [carryOut, decide_eq_true_eq, keptRounded_eq]
  simp only [pow_succ] at h ⊢
  cases roundUp r w with
  | false => simp only [Bool.toNat_false, Bool.false_eq_true, and_false, iff_false]; omega
  | true => simp only [Bool.toNat_true, and_true]; omega

/-- R89: without a carry the significand field is what the leading 1 leaves (D12). -/
theorem fracOf_of_not_carryOut {F : FloatFormat} {kept : Nat} (hlo : 2 ^ F.sigBits ≤ kept)
    (hhi : kept ≤ 2 ^ (F.sigBits + 1)) (h : carryOut F kept = false) : fracOf F kept = kept - 2 ^ F.sigBits := by
  have hlt : kept < 2 ^ F.sigBits + 2 ^ F.sigBits := by
    rw [← mul_two, ← pow_succ]
    exact hhi.lt_of_ne (of_decide_eq_false h)
  rw [fracOf, Nat.mod_eq_sub_mod hlo, Nat.mod_eq_of_lt (by omega)]

section
variable {F : FloatFormat} {e kept : Nat} (s : Bool)

/-- R88: the re-check for infinity. -/
theorem unpack_packRounded_of_emax_le (h : F.emax ≤ e) :
    unpack F (packRounded F s e kept) = ⟨s, BitVec.allOnes _, 0⟩ := by
  rw [packRounded, dif_pos h, infinity, unpack_fromParts]

theorem normalValue_packRounded (h : e < F.emax) : normalValue F (packRounded F s e kept) =
    (if s then -1 else 1) * (2 ^ F.sigBits + fracOf F kept : ℚ) * (2 : ℚ) ^ ((e : ℤ) - F.bias - F.sigBits) := by
  rw [packRounded, dif_neg h.not_ge, normalValue_fromParts, BitVec.toNat_ofNatLT, BitVec.toNat_ofNatLT]

/-- R88: a carry leaves the leading 1 alone, a power of two. -/
theorem normalValue_packRounded_of_carryOut (h : e < F.emax) (hcarry : carryOut F kept = true) :
    normalValue F (packRounded F s e kept) = (if s then -1 else 1) * (2 : ℚ) ^ ((e : ℤ) - F.bias) := by
  rw [normalValue_packRounded s h, fracOf_of_carryOut hcarry, Nat.cast_zero, add_zero, mul_assoc, ← zpow_natCast,
    ← zpow_add₀ two_ne_zero, add_sub_cancel]

end

/-- Settles O28: the carry is the one case in which the increment leaves the M+1 bits of the significand. -/
theorem incrementAndCarry : Obligations.IncrementAndCarry := by
  intro r F w e s hw1 hw2 kept
  obtain ⟨hlo, hhi⟩ := kept_bounds r hw1 hw2
  have hkept : kept = w / 8 + (roundUp r w).toNat := keptRounded_eq r w
  refine ⟨fun hup => ?_, fun hup => by simpa [hup] using hkept, hlo, hhi, carryOut_keptRounded_iff r hw2,
    fun hc => ⟨if_pos hc, fracOf_of_carryOut hc⟩,
    fun hc => ⟨by simp [exponentAfter, hc], fracOf_of_not_carryOut hlo hhi hc⟩,
    unpack_packRounded_of_emax_le s, fun hc he => ?_⟩
  · rw [hup, Bool.toNat_true] at hkept
    omega
  · rw [exponentAfter, if_pos hc, normalValue_packRounded_of_carryOut s he hc, Nat.cast_succ]

/-! ## The fields of a nonzero result (R90) -/

/-- R90 (a): the sign of a nonzero operand. -/
theorem signMag_sign_iff {W : Nat} (sg : Signedness) {x : BitVec W} (hx : x ≠ 0) :
    (signMag W sg x).1 = true ↔ intValue sg x < 0 := by
  have hpos : 0 < (signMag W sg x).2 := Nat.pos_of_ne_zero (signMag_ne_zero sg hx)
  rw [intValue_eq_signedMag]
  cases (signMag W sg x).1 <;> simp [signedMag, hpos]

/-- R82, R88: the exponent is that of the leading 1, one more after a carry, and the sign is the one given. -/
theorem normRound_sign_exp (r : RoundRule) (F : FloatFormat) {W m : Nat} (s : Bool) (hW : W ≤ 64) (h0 : m ≠ 0)
    (h : m < 2 ^ W) :
    (unpack F (normRound r F W s m)).sign = s ∧ F.bias ≤ (unpack F (normRound r F W s m)).exp.toNat ∧
      (unpack F (normRound r F W s m)).exp.toNat ≤ F.bias + W := by
  obtain ⟨p, hp, hsign, hexp, -⟩ := normRound_parts r F s hW h0 h
  obtain ⟨hn, -, -⟩ := size_bounds h0
  have hsize : Nat.size m ≤ W := Nat.size_le.2 h
  rw [hp, unpack_fromParts, hexp]
  refine ⟨hsign, ?_, ?_⟩
  · omega
  · split <;> omega

/-- Settles O30: the engine's exponent bounds on the operand's magnitude, and its sign on the operand's. -/
theorem nonzeroResultIsNormal : Obligations.NonzeroResultIsNormal := by
  intro r W sg F x hW hx
  have h0 := signMag_ne_zero sg hx
  have hlt := signMag_lt sg x
  rw [i2f_of_ne_zero r sg F hx]
  obtain ⟨hsign, hlo, hhi⟩ := normRound_sign_exp r F (signMag W sg x).1 hW.le_64 h0 hlt
  obtain ⟨-, hmax⟩ := normRound_exp_bounds r F (signMag W sg x).1 hW.le_64 h0 hlt
  exact ⟨by rw [hsign]; exact signMag_sign_iff sg hx, hlo, hhi, hmax, classify_normRound r F _ hW.le_64 h0 hlt⟩

end Sys2Proof.Machine
end

section
/-! PROOFS. The integer to float result as a rounding of the operand (spec/42_normalize_round.md R86, R90): the guard
field is the fraction of the magnitude's quotient by its unit, which gives both rounding rules as formulas on that
quotient, the nearest value under the default, and monotonicity. -/

namespace Sys2Proof.Machine

/-! ## The guard field as the fraction of the quotient (R90 (e)) -/

theorem unitOf_pos (F : FloatFormat) (i : ℤ) : 0 < unitOf F i := zpow_pos two_pos _

/-- The quotient by the unit as a fraction of naturals, of which the work register holds the quotient, and in the guard
field what is known of the remainder. -/
theorem exists_fraction_of_aligned (F : FloatFormat) (i : ℤ) :
    let w := aligned F (Nat.size i.natAbs) i.natAbs
    ∃ N D : ℕ, 0 < D ∧ |(i : ℚ)| / unitOf F i = (N : ℚ) / D ∧
      w / 8 = N / D ∧ (4 < w % 8 ↔ D < 2 * (N % D)) ∧ (w % 8 = 0 ↔ N % D = 0) := by
  intro w
  have habs : |(i : ℚ)| = (i.natAbs : ℚ) := by rw [Nat.cast_natAbs, Int.cast_abs]
  rcases le_total (Nat.size i.natAbs) (F.sigBits + 1) with hn | hn
  · have hexp : (Nat.size i.natAbs : ℤ) - F.sigBits - 1 = -((F.sigBits + 1 - Nat.size i.natAbs : ℕ) : ℤ) := by omega
    have hw : w = i.natAbs * 2 ^ (F.sigBits + 1 - Nat.size i.natAbs) * 8 := by
      have hshift : F.sigBits + 4 - Nat.size i.natAbs = F.sigBits + 1 - Nat.size i.natAbs + 3 := by omega
      rw [mul_assoc, show (8 : ℕ) = 2 ^ 3 from rfl, ← pow_add, ← hshift]
      exact aligned_left (by omega)
    refine ⟨i.natAbs * 2 ^ (F.sigBits + 1 - Nat.size i.natAbs), 1, one_pos, ?_, ?_, ?_, ?_⟩
    · rw [habs, unitOf, hexp, zpow_neg, div_inv_eq_mul, zpow_natCast]
      push_cast
      rw [div_one]
    all_goals omega
  · have hexp : (Nat.size i.natAbs : ℤ) - F.sigBits - 1 = ((Nat.size i.natAbs - (F.sigBits + 1) : ℕ) : ℤ) := by omega
    refine ⟨i.natAbs, 2 ^ (Nat.size i.natAbs - (F.sigBits + 1)), Nat.two_pow_pos _, ?_, aligned_spec hn⟩
    rw [habs, unitOf, hexp, zpow_natCast]
    push_cast
    rfl

/-- R90 (e): the bits above the guard field are the floor of the quotient; the guard field exceeds 100b exactly when the
fraction exceeds 1/2, and is 0 exactly when there is none. -/
theorem aligned_floor (F : FloatFormat) (i : ℤ) :
    let w := aligned F (Nat.size i.natAbs) i.natAbs
    let q := |(i : ℚ)| / unitOf F i
    ((w / 8 : ℕ) : ℤ) = ⌊q⌋ ∧ (4 < w % 8 ↔ 1 / 2 < q - ⌊q⌋) ∧ (w % 8 = 0 ↔ q = ⌊q⌋) := by
  intro w q
  obtain ⟨N, D, hD, hq, hdiv, hhalf, hzero⟩ := exists_fraction_of_aligned F i
  have hD' : (0 : ℚ) < D := by exact_mod_cast hD
  have hfract : q - ⌊q⌋ = ((N % D : ℕ) : ℚ) / D := by
    rw [Int.self_sub_floor, ← Int.fract_div_natCast_eq_div_natCast_mod, ← hq]
  refine ⟨?_, ?_, ?_⟩
  · simp only [q, hq, w, hdiv, Rat.floor_natCast_div_natCast, Int.natCast_div]
  · rw [hhalf, hfract, div_lt_div_iff₀ two_pos hD', one_mul, mul_comm]
    exact_mod_cast Iff.rfl
  · rw [hzero, ← sub_eq_zero (a := q), hfract, div_eq_zero_iff, or_iff_left hD'.ne', Nat.cast_eq_zero]

/-! ## The rounded operand (R86, R90) -/

/-- The magnitude of the engine's result on the integer `i`: the kept significand in units of its lowest bit. -/
def roundedMag (r : RoundRule) (F : FloatFormat) (i : ℤ) : ℚ :=
  (keptRounded r (aligned F (Nat.size i.natAbs) i.natAbs) : ℚ) * unitOf F i

/-- The value of the engine's result on the integer `i`. -/
def roundedValue (r : RoundRule) (F : FloatFormat) (i : ℤ) : ℚ :=
  if i < 0 then -roundedMag r F i else roundedMag r F i

section
variable (r : RoundRule) (F : FloatFormat)

theorem roundedMag_nonneg (i : ℤ) : 0 ≤ roundedMag r F i :=
  mul_nonneg (Nat.cast_nonneg _) (unitOf_pos F i).le

theorem roundedMag_zero : roundedMag r F 0 = 0 := by
  have hkept : keptRounded r (aligned F (Nat.size (0 : ℤ).natAbs) (0 : ℤ).natAbs) = 0 := by
    cases r <;> cases F <;> decide
  rw [roundedMag, hkept, Nat.cast_zero, zero_mul]

theorem abs_roundedValue (i : ℤ) : |roundedValue r F i| = roundedMag r F i := by
  rw [roundedValue]
  split
  · rw [abs_neg, abs_of_nonneg (roundedMag_nonneg r F i)]
  · exact abs_of_nonneg (roundedMag_nonneg r F i)

/-- The result has the operand's sign, so its error is that of the magnitudes. -/
theorem abs_roundedValue_sub (i : ℤ) : |roundedValue r F i - i| = |roundedMag r F i - (|(i : ℚ)|)| := by
  rw [roundedValue]
  split
  · next h =>
    rw [abs_of_neg (Int.cast_lt_zero.2 h), ← abs_neg]
    congr 1
    ring
  · next h => rw [abs_of_nonneg (Int.cast_nonneg (not_lt.1 h))]

variable {W : Nat} (hW : W ≤ 64) (sg : Signedness) (x : BitVec W)
include hW

/-- R90: the value of the conversion's result. -/
theorem normalValue_i2f (hx : x ≠ 0) : normalValue F (i2f r W sg F x) = roundedValue r F (intValue sg x) := by
  rw [i2f_of_ne_zero r sg F hx, normalValue_normRound r F _ hW (signMag_ne_zero sg hx) (signMag_lt sg x),
    roundedValue, roundedMag, unitOf, natAbs_intValue]
  simp only [signMag_sign_iff sg hx]
  split <;> ring

theorem classify_i2f (hx : x ≠ 0) : classify F (i2f r W sg F x) = .normal (roundedValue r F (intValue sg x)) := by
  rw [← normalValue_i2f r F hW sg x hx, i2f_of_ne_zero r sg F hx]
  exact classify_normRound r F _ hW (signMag_ne_zero sg hx) (signMag_lt sg x)

/-- The zero operand gives the pattern of 0 (R61), so the formula holds of every operand. -/
theorem valueOf_i2f : valueOf F (i2f r W sg F x) = some (roundedValue r F (intValue sg x)) := by
  by_cases hx : x = 0
  · have hzero : intValue sg x = 0 := not_not.1 fun h => (intValue_ne_zero_iff sg x).1 h hx
    have hclass : classify F 0 = .zero false := by cases F <;> decide
    rw [hzero, roundedValue, if_neg (lt_irrefl 0), roundedMag_zero, hx, i2f_zero]
    exact valueOf_of_zero hclass
  · exact valueOf_of_normal (classify_i2f r F hW sg x hx)

end

/-! ## The two rounding rules as formulas (R86, R90 (e)) -/

/-- HALF_DOWN_G3 on a quotient. -/
def halfDown (q : ℚ) : ℚ := if q - ⌊q⌋ ≤ 1 / 2 then (⌊q⌋ : ℚ) else (⌊q⌋ : ℚ) + 1

theorem keptRounded_aligned (r : RoundRule) (F : FloatFormat) (i : ℤ) :
    let w := aligned F (Nat.size i.natAbs) i.natAbs
    (keptRounded r w : ℚ) = ⌊|(i : ℚ)| / unitOf F i⌋ + (roundUp r w).toNat := by
  intro w
  rw [keptRounded_eq, ← (aligned_floor F i).1]
  push_cast
  rfl

theorem roundedMag_halfDownG3 (F : FloatFormat) (i : ℤ) :
    roundedMag .halfDownG3 F i = halfDown (|(i : ℚ)| / unitOf F i) * unitOf F i := by
  obtain ⟨-, hhalf, -⟩ := aligned_floor F i
  rw [← roundUp_halfDownG3_iff] at hhalf
  rw [roundedMag, keptRounded_aligned, halfDown]
  split
  · next h => rw [Bool.eq_false_iff.2 (hhalf.not.2 h.not_gt), Bool.toNat_false, Nat.cast_zero, add_zero]
  · next h => rw [hhalf.2 (not_le.1 h), Bool.toNat_true, Nat.cast_one]

/-- Settles O34: the result's value is the rounded operand, and its kept significand is `halfDown` of the quotient. -/
theorem halfDownFloorForm : Obligations.HalfDownFloorForm := by
  intro W sg F x hW hx i q
  rw [normalValue_i2f _ F hW.le_64 sg x hx, abs_roundedValue, roundedMag_halfDownG3]
  rfl

/-- Settles O35: bit 3 of the work register is the parity of the floor. -/
theorem literalLow4Form : Obligations.LiteralLow4Form := by
  intro W sg F x hW hx i q
  obtain ⟨hfloor, -, hzero⟩ := aligned_floor F i
  have hup : roundUp .literalLow4 (aligned F (Nat.size i.natAbs) i.natAbs) = true ↔ ⌊q⌋ % 2 = 1 ∧ q ≠ ⌊q⌋ := by
    rw [roundUp_literalLow4_iff]
    exact and_congr (by rw [← hfloor]; omega) hzero.not
  rw [normalValue_i2f _ F hW.le_64 sg x hx, abs_roundedValue, roundedMag, keptRounded_aligned]
  split
  · next h => rw [hup.2 h, Bool.toNat_true, Nat.cast_one]
  · next h => rw [Bool.eq_false_iff.2 (hup.not.2 h), Bool.toNat_false, Nat.cast_zero, add_zero]

/-! ## The nearest value under the default (R86) -/

/-- `halfDown` answers the integer nearest to `q`, of two equally near ones the lower. -/
theorem abs_halfDown_sub_le (q : ℚ) (j : ℤ) :
    |halfDown q - q| ≤ |j - q| ∧ (|halfDown q - q| = |j - q| → halfDown q ≤ j) := by
  have hlo := Int.floor_le q
  have hhi := Int.lt_floor_add_one q
  have hdist : (j : ℚ) ≤ ⌊q⌋ ∧ |j - q| = q - j ∨ (⌊q⌋ : ℚ) + 1 ≤ j ∧ |j - q| = j - q := by
    rcases le_or_gt j ⌊q⌋ with h | h
    · have hj : (j : ℚ) ≤ ⌊q⌋ := by exact_mod_cast h
      exact .inl ⟨hj, by rw [abs_of_nonpos (by linarith), neg_sub]⟩
    · have hj : (⌊q⌋ : ℚ) + 1 ≤ j := by exact_mod_cast h
      exact .inr ⟨hj, abs_of_nonneg (by linarith)⟩
  rw [halfDown]
  split
  · rw [abs_of_nonpos (by linarith)]
    rcases hdist with ⟨hj, hd⟩ | ⟨hj, hd⟩ <;> exact ⟨by linarith, fun _ => by linarith⟩
  · rw [abs_of_nonneg (by linarith)]
    rcases hdist with ⟨hj, hd⟩ | ⟨hj, hd⟩ <;> exact ⟨by linarith, fun _ => by linarith⟩

theorem normalValue_of_classify {F : FloatFormat} {b : BitVec F.total} {v : ℚ} (h : classify F b = .normal v) :
    normalValue F b = v := by
  simp only [classify] at h
  split_ifs at h
  exact FloatClass.normal.inj h

theorem abs_normalValue (F : FloatFormat) (b : BitVec F.total) :
    |normalValue F b| = (sigWithImplicit F (unpack F b).frac : ℚ) *
      (2 : ℚ) ^ (((unpack F b).exp.toNat : ℤ) - F.bias - F.sigBits) := by
  have hsign : ∀ s : Bool, |(if s then -1 else 1 : ℚ)| = 1 := by simp [apply_ite abs]
  rw [normalValue, abs_mul, abs_mul, hsign, one_mul, Nat.abs_cast, abs_of_pos (zpow_pos two_pos _)]

/-- A normal value of the format is a multiple of a given unit, or too small for its leading bit to be the top one of a
significand in that unit. -/
theorem abs_normalValue_multiple_or_lt (F : FloatFormat) (b : BitVec F.total) (p : ℤ) :
    (∃ j : ℤ, |normalValue F b| = j * (2 : ℚ) ^ p) ∨ |normalValue F b| < 2 ^ F.sigBits * (2 : ℚ) ^ p := by
  obtain ⟨-, hsig⟩ := sigWithImplicit_bounds F (unpack F b).frac
  rw [abs_normalValue]
  generalize ((unpack F b).exp.toNat : ℤ) - F.bias - F.sigBits = t
  rcases le_or_gt p t with hpt | htp
  · obtain ⟨d, rfl⟩ := Int.le.dest hpt
    refine .inl ⟨(sigWithImplicit F (unpack F b).frac * 2 ^ d : ℕ), ?_⟩
    rw [zpow_add₀ two_ne_zero, zpow_natCast]
    push_cast
    ring
  · refine .inr ?_
    calc (sigWithImplicit F (unpack F b).frac : ℚ) * 2 ^ t < 2 ^ (F.sigBits + 1) * 2 ^ t :=
          mul_lt_mul_of_pos_right (by exact_mod_cast hsig) (zpow_pos two_pos t)
      _ = 2 ^ F.sigBits * 2 ^ (t + 1) := by rw [zpow_add_one₀ two_ne_zero, pow_succ]; ring
      _ ≤ 2 ^ F.sigBits * 2 ^ p :=
          mul_le_mul_of_nonneg_left (zpow_le_zpow_right₀ one_le_two htp) (by positivity)

/-- The leading bit of the magnitude is the top one of a significand in its unit. -/
theorem two_pow_mul_unitOf_le (F : FloatFormat) {i : ℤ} (hi : i ≠ 0) : 2 ^ F.sigBits * unitOf F i ≤ |(i : ℚ)| := by
  obtain ⟨hn, hlow, -⟩ := size_bounds (Int.natAbs_ne_zero.2 hi)
  have hexp : (F.sigBits : ℤ) + ((Nat.size i.natAbs : ℤ) - F.sigBits - 1) = ((Nat.size i.natAbs - 1 : ℕ) : ℤ) := by omega
  rw [unitOf, ← zpow_natCast, ← zpow_add₀ two_ne_zero, hexp, zpow_natCast, ← Int.cast_abs, ← Nat.cast_natAbs]
  exact_mod_cast hlow

/-- An integral multiple of the unit is no nearer than the rounded magnitude, and no smaller when equally near. -/
theorem roundedMag_nearest_multiple (F : FloatFormat) (i j : ℤ) :
    |roundedMag .halfDownG3 F i - (|(i : ℚ)|)| ≤ |j * unitOf F i - (|(i : ℚ)|)| ∧
      (|roundedMag .halfDownG3 F i - (|(i : ℚ)|)| = |j * unitOf F i - (|(i : ℚ)|)| →
        roundedMag .halfDownG3 F i ≤ j * unitOf F i) := by
  have hunit := unitOf_pos F i
  obtain ⟨hle, htie⟩ := abs_halfDown_sub_le (|(i : ℚ)| / unitOf F i) j
  have hscale : ∀ a : ℚ, |a * unitOf F i - (|(i : ℚ)|)| = |a - (|(i : ℚ)|) / unitOf F i| * unitOf F i := by
    intro a
    rw [← abs_of_pos hunit, ← abs_mul, abs_of_pos hunit, sub_mul, div_mul_cancel₀ _ hunit.ne']
  rw [roundedMag_halfDownG3, hscale, hscale, mul_left_inj' hunit.ne']
  exact ⟨mul_le_mul_of_nonneg_right hle hunit.le, fun h => mul_le_mul_of_nonneg_right (htie h) hunit.le⟩

/-- R86: no normal value's magnitude is nearer, and of two equally near ones the smaller is answered. A value that is no
multiple of the unit lies below the leading bit of the operand, which is one and is nearer. -/
theorem roundedMag_nearest (F : FloatFormat) {i : ℤ} (hi : i ≠ 0) (b : BitVec F.total) :
    |roundedMag .halfDownG3 F i - (|(i : ℚ)|)| ≤ |(|normalValue F b|) - (|(i : ℚ)|)| ∧
      (|roundedMag .halfDownG3 F i - (|(i : ℚ)|)| = |(|normalValue F b|) - (|(i : ℚ)|)| →
        roundedMag .halfDownG3 F i ≤ |normalValue F b|) := by
  rcases abs_normalValue_multiple_or_lt F b ((Nat.size i.natAbs : ℤ) - F.sigBits - 1) with ⟨j, hj⟩ | hlt
  · rw [hj]
    exact roundedMag_nearest_multiple F i j
  · have hlead := two_pow_mul_unitOf_le F hi
    have hnear := (roundedMag_nearest_multiple F i (2 ^ F.sigBits)).1
    push_cast at hnear
    rw [← unitOf] at hlt
    rw [abs_of_nonpos (a := 2 ^ F.sigBits * unitOf F i - |(i : ℚ)|) (by linarith)] at hnear
    rw [abs_of_nonpos (a := |normalValue F b| - |(i : ℚ)|) (by linarith)]
    exact ⟨by linarith, fun h => by linarith⟩

theorem i2f_nearestTiesTowardZero {W : Nat} (hW : W ≤ 64) (sg : Signedness) (F : FloatFormat) (x : BitVec W) :
    NearestTiesTowardZero F (intValue sg x) (i2f .halfDownG3 W sg F x) := by
  constructor
  · intro hzero
    rw [not_not.1 fun hx => (intValue_ne_zero_iff sg x).2 hx hzero, i2f_zero]
  · intro hi
    refine ⟨_, classify_i2f _ F hW sg x ((intValue_ne_zero_iff sg x).1 hi), fun b' v' h' => ?_⟩
    obtain rfl := normalValue_of_classify h'
    obtain ⟨hle, htie⟩ := roundedMag_nearest F hi b'
    have hdist := abs_abs_sub_abs_le (normalValue F b') (intValue sg x : ℚ)
    rw [abs_roundedValue_sub, abs_roundedValue]
    exact ⟨hle.trans hdist, fun h => htie (hle.antisymm (h ▸ hdist))⟩

theorem answersNearest_of_exec {i : Instr} {s : State} {F : FloatFormat} {W : Nat} {sg : Signedness} {x : BitVec W}
    (hr : s.config.roundRule = .halfDownG3) (hW : W ≤ 64) (h : exec i s = runI2F W sg F x i.diag s) :
    AnswersFloat i s F (NearestTiesTowardZero F (intValue sg x)) :=
  answersFloat_of_exec h (by rw [hr]; exact i2f_nearestTiesTowardZero hW sg F x)

/-- Settles O32: each arm is one conversion, which answers the nearest value under the default rule. -/
theorem intToFloatNearestTiesTowardZero : Obligations.IntToFloatNearestTiesTowardZero := by
  intro s d v hr
  rw [← operand32_eq_setWidth, ← operand64_eq v]
  have h32 : 32 ≤ 64 := by decide
  exact ⟨answersNearest_of_exec hr h32 (exec_i2fU32F32 ..), answersNearest_of_exec hr h32 (exec_i2fU32F64 ..),
    answersNearest_of_exec hr le_rfl (exec_i2fU64F32 ..), answersNearest_of_exec hr le_rfl (exec_i2fU64F64 ..),
    answersNearest_of_exec hr h32 (exec_i2fS32F32 ..), answersNearest_of_exec hr h32 (exec_i2fS32F64 ..),
    answersNearest_of_exec hr le_rfl (exec_i2fS64F32 ..), answersNearest_of_exec hr le_rfl (exec_i2fS64F64 ..)⟩

end Sys2Proof.Machine
end

section
/-! PROOFS. Integer to float keeps the order of its operands (spec/42_normalize_round.md R90 (f)): a greater magnitude has
more bits, or as many and a kept significand at least as great. -/

namespace Sys2Proof.Machine

/-! ## Quotients with one bit that tells of the remainder (R84, R87) -/

theorem mod_le_mod_of_div_eq {m m' K : Nat} (h : m ≤ m') (hdiv : m / K = m' / K) : m % K ≤ m' % K := by
  rw [← Nat.div_add_mod m K, ← Nat.div_add_mod m' K, hdiv] at h
  exact Nat.le_of_add_le_add_left h

/-- R86: of two work registers with the same bits above the guard field, the greater is rounded up if the lesser is. -/
theorem roundUp_le_of_div_eq (r : RoundRule) {w w' : Nat} (h : w ≤ w') (hdiv : w / 8 = w' / 8) :
    roundUp r w ≤ roundUp r w' := by
  have hmod := mod_le_mod_of_div_eq h hdiv
  rw [Bool.le_iff_imp]
  cases r with
  | halfDownG3 => rw [roundUp_halfDownG3_iff, roundUp_halfDownG3_iff]; omega
  | literalLow4 => rw [roundUp_literalLow4_iff, roundUp_literalLow4_iff]; omega

theorem keptRounded_mono (r : RoundRule) {w w' : Nat} (h : w ≤ w') : keptRounded r w ≤ keptRounded r w' := by
  rw [keptRounded_eq, keptRounded_eq]
  rcases (Nat.div_le_div_right (c := 8) h).lt_or_eq with hdiv | hdiv
  · have := Bool.toNat_le (roundUp r w)
    omega
  · exact Nat.add_le_add hdiv.le (Bool.toNat_le_toNat (roundUp_le_of_div_eq r h hdiv))

theorem or_bool_le_or_bool {a a' : Nat} {b b' : Bool} (h : a ≤ a') (hb : a = a' → b ≤ b') :
    a ||| b.toNat ≤ a' ||| b'.toNat := by
  have hdiv := or_bool_div_two a b
  have hmod := or_bool_mod_two a b
  have hdiv' := or_bool_div_two a' b'
  have hmod' := or_bool_mod_two a' b'
  have hone := Bool.toNat_le b
  rcases h.lt_or_eq with hlt | heq
  · omega
  · have := Bool.toNat_le_toNat (hb heq)
    omega

theorem aligned_mono (F : FloatFormat) (n : Nat) {m m' : Nat} (h : m ≤ m') : aligned F n m ≤ aligned F n m' := by
  rcases Nat.lt_or_ge n (F.sigBits + 4) with hn | hn
  · rw [aligned_left hn, aligned_left hn]
    exact Nat.mul_le_mul_right _ h
  · rw [aligned_right hn, aligned_right hn]
    refine or_bool_le_or_bool (Nat.div_le_div_right h) fun hdiv => ?_
    have hmod := mod_le_mod_of_div_eq h hdiv
    rw [Bool.le_iff_imp, decide_eq_true_eq, decide_eq_true_eq]
    omega

/-- A greater magnitude has more bits, or as many and a kept significand at least as great. -/
theorem size_lt_or_keptRounded_le (r : RoundRule) (F : FloatFormat) {m m' : Nat} (h : m ≤ m') :
    Nat.size m < Nat.size m' ∨ Nat.size m = Nat.size m' ∧
      keptRounded r (aligned F (Nat.size m) m) ≤ keptRounded r (aligned F (Nat.size m') m') := by
  refine (Nat.size_le_size h).lt_or_eq.imp_right fun hsize => ⟨hsize, ?_⟩
  rw [hsize]
  exact keptRounded_mono r (aligned_mono F _ h)

theorem keptRounded_aligned_bounds (r : RoundRule) (F : FloatFormat) {m : Nat} (h0 : m ≠ 0) :
    2 ^ F.sigBits ≤ keptRounded r (aligned F (Nat.size m) m) ∧
      keptRounded r (aligned F (Nat.size m) m) ≤ 2 ^ (F.sigBits + 1) := by
  obtain ⟨hn, hl, hu⟩ := size_bounds h0
  obtain ⟨hw1, hw2⟩ := aligned_bounds (F := F) hn hl hu
  exact kept_bounds r hw1 hw2

/-! ## As patterns -/

/-- R88, R89: a carry moves the leading 1 into the exponent field, so exponent and significand fields are one number,
the exponent before rounding above the kept significand without its leading 1. -/
theorem exponentAfter_mul_add_fracOf {F : FloatFormat} (e : Nat) {kept : Nat} (hlo : 2 ^ F.sigBits ≤ kept)
    (hhi : kept ≤ 2 ^ (F.sigBits + 1)) :
    exponentAfter F e kept * 2 ^ F.sigBits + fracOf F kept + 2 ^ F.sigBits = e * 2 ^ F.sigBits + kept := by
  rw [exponentAfter_eq, add_mul]
  cases hc : carryOut F kept with
  | false =>
    rw [fracOf_of_not_carryOut hlo hhi hc, Bool.toNat_false, zero_mul]
    omega
  | true =>
    have hkept : kept = 2 ^ (F.sigBits + 1) := of_decide_eq_true hc
    rw [fracOf_of_carryOut hc, Bool.toNat_true, hkept, pow_succ]
    omega

theorem normRound_toNat_add (r : RoundRule) (F : FloatFormat) {W m : Nat} (s : Bool) (hW : W ≤ 64) (h0 : m ≠ 0)
    (h : m < 2 ^ W) : (normRound r F W s m).toNat + 2 ^ F.sigBits = s.toNat * 2 ^ (F.total - 1) +
      (initialExp F (Nat.size m) * 2 ^ F.sigBits + keptRounded r (aligned F (Nat.size m) m)) := by
  obtain ⟨hlo, hhi⟩ := keptRounded_aligned_bounds r F h0
  rw [normRound_toNat r F s hW h0 h, ← exponentAfter_mul_add_fracOf _ hlo hhi]
  ring

/-- R90 (f): the engine's patterns of one sign are ordered as the magnitudes. -/
theorem normRound_toNat_mono (r : RoundRule) (F : FloatFormat) {W m m' : Nat} (s : Bool) (hW : W ≤ 64) (h0 : m ≠ 0)
    (hle : m ≤ m') (h : m' < 2 ^ W) : (normRound r F W s m).toNat ≤ (normRound r F W s m').toNat := by
  have h0' : m' ≠ 0 := by omega
  obtain ⟨-, hhi⟩ := keptRounded_aligned_bounds r F h0
  obtain ⟨hlo, -⟩ := keptRounded_aligned_bounds r F h0'
  have hpat := normRound_toNat_add r F s hW h0 (hle.trans_lt h)
  have hpat' := normRound_toNat_add r F s hW h0' h
  rcases size_lt_or_keptRounded_le r F hle with hsize | ⟨hsize, hkept⟩
  · have hexp : (initialExp F (Nat.size m) + 1) * 2 ^ F.sigBits ≤ initialExp F (Nat.size m') * 2 ^ F.sigBits :=
      Nat.mul_le_mul_right _ (by obtain ⟨hn, -, -⟩ := size_bounds h0; simp only [initialExp]; omega)
    rw [add_mul, one_mul] at hexp
    rw [pow_succ] at hhi
    omega
  · rw [hsize] at hpat hkept
    omega

theorem i2f_unsigned_toNat_mono (r : RoundRule) (F : FloatFormat) {W : Nat} (hW : W ≤ 64) {x y : BitVec W}
    (h : x.toNat ≤ y.toNat) : (i2f r W .unsigned F x).toNat ≤ (i2f r W .unsigned F y).toNat := by
  by_cases hx : x = 0
  · rw [hx, i2f_zero]
    simp
  · have hx0 : x.toNat ≠ 0 := signMag_ne_zero .unsigned hx
    have hy : y ≠ 0 := by rintro rfl; exact hx0 (Nat.le_zero.1 h)
    rw [i2f_of_ne_zero r _ F hx, i2f_of_ne_zero r _ F hy]
    exact normRound_toNat_mono r F false hW hx0 h y.isLt

/-! ## As values -/

section
variable (r : RoundRule) (F : FloatFormat) {i j : ℤ}

theorem roundedMag_mono (h : i.natAbs ≤ j.natAbs) : roundedMag r F i ≤ roundedMag r F j := by
  by_cases hi : i = 0
  · rw [hi, roundedMag_zero]
    exact roundedMag_nonneg r F j
  have hi0 : i.natAbs ≠ 0 := Int.natAbs_ne_zero.2 hi
  rcases size_lt_or_keptRounded_le r F h with hsize | ⟨hsize, hkept⟩
  · obtain ⟨-, hhi⟩ := keptRounded_aligned_bounds r F hi0
    obtain ⟨hlo, -⟩ := keptRounded_aligned_bounds r F (m := j.natAbs) (by omega)
    have hunit : 2 * unitOf F i ≤ unitOf F j := by
      rw [unitOf, unitOf, ← zpow_one_add₀ two_ne_zero]
      exact zpow_le_zpow_right₀ one_le_two (by omega)
    calc roundedMag r F i ≤ (2 ^ (F.sigBits + 1) : ℕ) * unitOf F i :=
          mul_le_mul_of_nonneg_right (Nat.cast_le.2 hhi) (unitOf_pos F i).le
      _ = (2 ^ F.sigBits : ℕ) * (2 * unitOf F i) := by push_cast; ring
      _ ≤ roundedMag r F j :=
          mul_le_mul (Nat.cast_le.2 hlo) hunit (mul_pos two_pos (unitOf_pos F i)).le (Nat.cast_nonneg _)
  · have hunit : unitOf F i = unitOf F j := by rw [unitOf, unitOf, hsize]
    rw [roundedMag, roundedMag, hunit]
    exact mul_le_mul_of_nonneg_right (Nat.cast_le.2 hkept) (unitOf_pos F j).le

theorem roundedValue_mono (h : i ≤ j) : roundedValue r F i ≤ roundedValue r F j := by
  unfold roundedValue
  split_ifs with hi hj
  · exact neg_le_neg (roundedMag_mono r F (by omega))
  · exact (neg_nonpos.2 (roundedMag_nonneg r F i)).trans (roundedMag_nonneg r F j)
  · omega
  · exact roundedMag_mono r F (by omega)

end

/-- Settles O36: the patterns by their exponent and kept significand, the values by the rounded magnitudes. -/
theorem intToFloatIsMonotonic : Obligations.IntToFloatIsMonotonic := by
  intro r W F hW
  refine ⟨fun s m m' hm hle hlt => ?_, fun x y h => i2f_unsigned_toNat_mono r F hW.le_64 h, fun sg x y h =>
    ⟨_, _, valueOf_i2f r F hW.le_64 sg x, valueOf_i2f r F hW.le_64 sg y, roundedValue_mono r F h⟩⟩
  have h0 : m ≠ 0 := Nat.one_le_iff_ne_zero.1 hm
  obtain ⟨hsign, -, -⟩ := normRound_sign_exp r F s hW.le_64 h0 (hle.trans_lt hlt)
  obtain ⟨hsign', -, -⟩ := normRound_sign_exp r F s hW.le_64 (m := m') (by omega) hlt
  exact ⟨hsign, hsign', normRound_toNat_mono r F s hW.le_64 h0 hle hlt⟩

end Sys2Proof.Machine
end

section
/-! PROOFS. Float to integer on the value of a pattern (spec/43_fp_to_int.md R102 to R105): an exponent field bounds the
magnitude between two powers of two, and the shift gives the floor of that magnitude. -/

namespace Sys2Proof.Machine

/-! ## Classes and exponents (R48) -/

/-- R48: the exponent field decides the class, up to the significand field's being 0, and the class carries the sign. -/
theorem classify_cases (F : FloatFormat) (b : BitVec F.total) :
    ((unpack F b).exp.toNat = F.emax ∧
      (classify F b = .infinite (unpack F b).sign ∨ classify F b = .nan (unpack F b).sign)) ∨
    ((unpack F b).exp = 0 ∧
      (classify F b = .zero (unpack F b).sign ∨ classify F b = .subnormal (unpack F b).sign)) ∨
    classify F b = .normal (normalValue F b) := by
  by_cases hmax : (unpack F b).exp.toNat = F.emax
  · refine .inl ⟨hmax, ?_⟩
    simp only [classify, if_pos hmax]
    split <;> simp
  by_cases hzero : (unpack F b).exp = 0
  · refine .inr (.inl ⟨hzero, ?_⟩)
    simp only [classify, if_neg hmax, if_pos hzero]
    split <;> simp
  · exact .inr (.inr (by simp only [classify, if_neg hmax, if_neg hzero]))

theorem exp_toNat_lt_bias_of_exp_eq_zero {F : FloatFormat} {b : BitVec F.total} (h : (unpack F b).exp = 0) :
    (unpack F b).exp.toNat < F.bias := by
  obtain ⟨hbias, -, -⟩ := bias_facts F
  rwa [h]

section
variable (F : FloatFormat) (b : BitVec F.total)

theorem normalValue_eq_ite_sign :
    normalValue F b = if (unpack F b).sign then -|normalValue F b| else |normalValue F b| := by
  rw [abs_normalValue, normalValue]
  split <;> ring

/-- R48: the significand is at least 2^M and less than 2^(M+1), so the magnitude has the leading bit 2^(e-BIAS). -/
theorem two_zpow_le_abs_normalValue :
    (2 : ℚ) ^ (((unpack F b).exp.toNat : ℤ) - F.bias) ≤ |normalValue F b| := by
  obtain ⟨hsig, -⟩ := sigWithImplicit_bounds F (unpack F b).frac
  rw [abs_normalValue, zpow_sub₀ two_ne_zero _ (F.sigBits : ℤ), zpow_natCast, mul_div_left_comm]
  exact le_mul_of_one_le_right (zpow_nonneg zero_le_two _) ((one_le_div₀ (by positivity)).2 (by exact_mod_cast hsig))

theorem abs_normalValue_lt_two_zpow :
    |normalValue F b| < (2 : ℚ) ^ (((unpack F b).exp.toNat : ℤ) - F.bias + 1) := by
  obtain ⟨-, hsig⟩ := sigWithImplicit_bounds F (unpack F b).frac
  rw [abs_normalValue, zpow_sub₀ two_ne_zero _ (F.sigBits : ℤ), zpow_natCast, mul_div_left_comm,
    zpow_add_one₀ two_ne_zero]
  refine mul_lt_mul_of_pos_left ((div_lt_iff₀' (by positivity)).2 ?_) (zpow_pos two_pos _)
  rw [← pow_succ]
  exact_mod_cast hsig

variable {F b}

/-- R102: a magnitude below 1 is an exponent below BIAS. -/
theorem abs_normalValue_lt_one_iff : |normalValue F b| < 1 ↔ (unpack F b).exp.toNat < F.bias := by
  constructor
  · intro h
    by_contra hbias
    have hone : (1 : ℚ) ≤ 2 ^ (((unpack F b).exp.toNat : ℤ) - F.bias) := one_le_zpow₀ one_le_two (by omega)
    exact absurd ((hone.trans (two_zpow_le_abs_normalValue F b)).trans_lt h) (lt_irrefl 1)
  · intro h
    exact (abs_normalValue_lt_two_zpow F b).trans_le (zpow_le_one_of_nonpos₀ one_le_two (by omega))

/-- R104: a magnitude of 2^W or more is an exponent of BIAS + W or more. -/
theorem two_pow_le_abs_normalValue_iff {W : Nat} :
    (2 : ℚ) ^ W ≤ |normalValue F b| ↔ F.bias + W ≤ (unpack F b).exp.toNat := by
  rw [← zpow_natCast]
  constructor
  · intro h
    have := (zpow_lt_zpow_iff_right₀ one_lt_two).1 (h.trans_lt (abs_normalValue_lt_two_zpow F b))
    omega
  · intro h
    exact (zpow_le_zpow_right₀ one_le_two (by omega)).trans (two_zpow_le_abs_normalValue F b)

end

theorem toBits_zero (W : Nat) : toBits W 0 = 0 := BitVec.ofInt_natCast W 0

/-- Settles O38: zeros, subnormals and magnitudes below 1 all have an exponent below BIAS. -/
theorem magnitudeBelowOneGivesZero : Obligations.MagnitudeBelowOneGivesZero := by
  intro F W sg b
  have hlow : (unpack F b).exp.toNat < F.bias → f2i F W sg b = 0 := fun h =>
    (f2i_of_below_bias h).trans (toBits_zero W)
  refine ⟨hlow, fun h => hlow (exp_toNat_lt_bias_of_exp_eq_zero h), fun v hv hlt => hlow ?_⟩
  rwa [← abs_normalValue_lt_one_iff, normalValue_of_classify hv]

/-! ## Saturation by the exponent (R53, R104) -/

theorem toBits_two_pow_sub_one (W n : Nat) : toBits W (2 ^ n - 1) = BitVec.ofNat W (2 ^ n - 1) := by
  have hcast : (2 ^ n - 1 : ℤ) = ((2 ^ n - 1 : ℕ) : ℤ) := by
    rw [Nat.cast_sub Nat.one_le_two_pow]
    norm_num
  rw [hcast]
  exact BitVec.ofInt_natCast ..

theorem toBits_imax_unsigned (W : Nat) : toBits W (imax W .unsigned) = BitVec.allOnes W :=
  (toBits_two_pow_sub_one W W).trans (BitVec.eq_of_toNat_eq (by simp))

theorem toBits_imax_signed (W : Nat) : toBits W (imax W .signed) = BitVec.ofNat W (2 ^ (W - 1) - 1) :=
  toBits_two_pow_sub_one W (W - 1)

theorem toBits_imin_signed (W : Nat) : toBits W (imin W .signed) = BitVec.ofNat W (2 ^ (W - 1)) := by
  have hcast : (2 ^ (W - 1) : ℤ) = ((2 ^ (W - 1) : ℕ) : ℤ) := by norm_num
  have hmin : BitVec.ofNat W (2 ^ (W - 1)) = BitVec.intMin W := BitVec.eq_of_toNat_eq BitVec.toNat_intMin.symm
  rw [toBits, imin, BitVec.ofInt_neg, hcast, BitVec.ofInt_natCast, hmin, BitVec.neg_intMin]

/-- R104: EMAX is beyond every destination of at most 64 bits. -/
theorem bias_add_le_of_exp_eq_emax {F : FloatFormat} {W : Nat} {b : BitVec F.total} (hW : W ≤ 64)
    (h : (unpack F b).exp.toNat = F.emax) : F.bias + W ≤ (unpack F b).exp.toNat := by
  obtain ⟨-, hemax, -⟩ := bias_facts F
  omega

/-- Settles O39: the extremes as vectors, and the exponents of infinities, NaNs and large magnitudes. -/
theorem exponentSaturation : Obligations.ExponentSaturation := by
  intro F W sg b hW
  refine ⟨fun h => ?_, bias_add_le_of_exp_eq_emax hW.le_64, fun v hv hle => ?_⟩
  · rw [f2i_of_saturated h]
    cases sg with
    | unsigned =>
      cases (unpack F b).sign with
      | false => exact toBits_imax_unsigned W
      | true => exact toBits_zero W
    | signed =>
      cases (unpack F b).sign with
      | false => exact toBits_imax_signed W
      | true => exact toBits_imin_signed W
  · rwa [← two_pow_le_abs_normalValue_iff, normalValue_of_classify hv]

/-! ## The shift (R105) -/

section
variable {F : FloatFormat} {u : Nat} (sig : Nat)

theorem magnitude_of_lt (h : u < F.sigBits) : magnitude F u sig = sig / 2 ^ (F.sigBits - u) := by
  simp [magnitude, shiftAmount, shiftsLeft, h.not_ge, Nat.shiftRight_eq_div_pow]

theorem magnitude_of_ge (h : F.sigBits ≤ u) : magnitude F u sig = sig * 2 ^ (u - F.sigBits) := by
  simp [magnitude, shiftAmount, shiftsLeft, h, Nat.shiftLeft_eq]

/-- R105: the shift takes the floor of the significand at the weight 2^(u-M) of its lowest bit. -/
theorem magnitude_eq_floor (F : FloatFormat) (u : Nat) :
    magnitude F u sig = ⌊(sig : ℚ) * 2 ^ ((u : ℤ) - F.sigBits)⌋₊ := by
  rcases Nat.lt_or_ge u F.sigBits with h | h
  · have hexp : (u : ℤ) - F.sigBits = -((F.sigBits - u : ℕ) : ℤ) := by omega
    rw [magnitude_of_lt sig h, hexp, zpow_neg, zpow_natCast, ← div_eq_mul_inv, ← Nat.floor_div_eq_div (K := ℚ),
      Nat.cast_pow, Nat.cast_ofNat]
  · have hexp : (u : ℤ) - F.sigBits = ((u - F.sigBits : ℕ) : ℤ) := by omega
    rw [magnitude_of_ge sig h, hexp, zpow_natCast, ← Nat.floor_natCast (R := ℚ) (sig * _), Nat.cast_mul,
      Nat.cast_pow, Nat.cast_ofNat]

end

theorem magnitude_eq_floor_abs_normalValue {F : FloatFormat} {b : BitVec F.total}
    (h : F.bias ≤ (unpack F b).exp.toNat) :
    magnitude F ((unpack F b).exp.toNat - F.bias) (sigWithImplicit F (unpack F b).frac) = ⌊|normalValue F b|⌋₊ := by
  rw [magnitude_eq_floor, abs_normalValue, Nat.cast_sub h]

/-- Settles O40: one lemma per direction of the shift, the floor, and the leading 1 at bit u. -/
theorem shiftTruncatesTowardZero : Obligations.ShiftTruncatesTowardZero := by
  intro F W b p u sig hbias hu
  obtain ⟨hsig1, hsig2⟩ := sigWithImplicit_bounds F p.frac
  obtain ⟨hmag1, hmag2⟩ := magnitude_bounds (u := u) hsig1 hsig2
  refine ⟨magnitude_of_lt sig, magnitude_of_ge sig, ?_, hmag1, hmag2, Nat.pow_le_pow_right two_pos hu, ?_, ?_⟩
  · rw [← Int.natCast_floor_eq_floor (abs_nonneg _), ← magnitude_eq_floor_abs_normalValue hbias]
    rfl
  · rintro rfl rfl
    exact hu.trans (by decide)
  · rintro rfl rfl
    exact Nat.sub_le_sub_right (Nat.le_of_lt_succ hu) 23

end Sys2Proof.Machine
end

section
/-! PROOFS. Float to integer as truncation and saturation (spec/43_fp_to_int.md R106, R108 to R117): the range clamp band
by band, and on every pattern the value of R48's formula truncated toward zero and clamped. -/

namespace Sys2Proof.Machine

theorem InScopeWidth.pos {W : Nat} (h : InScopeWidth W) : 0 < W := by
  rcases h with rfl | rfl <;> decide

/-! ## The clamp (R6, R106) -/

section
variable {z lo hi : ℤ}

theorem clamp_eq_max_min (h : lo ≤ hi) : clamp z lo hi = max lo (min z hi) := by
  unfold clamp
  split_ifs <;> omega

theorem clamp_of_le_lo (h : lo ≤ hi) (hz : z ≤ lo) : clamp z lo hi = lo := by
  unfold clamp
  split_ifs <;> omega

theorem clamp_of_hi_le (h : lo ≤ hi) (hz : hi ≤ z) : clamp z lo hi = hi := by
  unfold clamp
  split_ifs <;> omega

theorem clamp_of_mem (hlo : lo ≤ z) (hhi : z ≤ hi) : clamp z lo hi = z := by
  unfold clamp
  split_ifs <;> omega

end

theorem imin_le_imax (W : Nat) (sg : Signedness) : imin W sg ≤ imax W sg :=
  (imin_nonpos W sg).trans (imax_nonneg W sg)

theorem intValue_toBits_clamp {W : Nat} (hW : 0 < W) (sg : Signedness) (z : ℤ) :
    intValue sg (toBits W (clamp z (imin W sg) (imax W sg))) = clamp z (imin W sg) (imax W sg) := by
  obtain ⟨hlo, hhi⟩ := clamp_bounds W sg z
  exact intValue_toBits hW hlo hhi

theorem intValue_toBits_extremeOf {W : Nat} (hW : 0 < W) (sg : Signedness) (s : Bool) :
    intValue sg (toBits W (extremeOf W sg s)) = extremeOf W sg s := by
  obtain ⟨hlo, hhi⟩ := extremeOf_bounds W sg s
  exact intValue_toBits hW hlo hhi

/-! ## The three bands (R106, D13, D14) -/

section
variable {W mag : Nat}

theorem clamp_signed_of_lt (h : mag < 2 ^ (W - 1)) (s : Bool) :
    clamp (signedMag s mag) (imin W .signed) (imax W .signed) = signedMag s mag := by
  have hmag : (mag : ℤ) < 2 ^ (W - 1) := by exact_mod_cast h
  have hnonneg : (0 : ℤ) ≤ mag := Nat.cast_nonneg mag
  cases s with
  | false => exact clamp_of_mem ((imin_nonpos W .signed).trans hnonneg) (Int.le_sub_one_of_lt hmag)
  | true => exact clamp_of_mem (neg_le_neg hmag.le) ((neg_nonpos.2 hnonneg).trans (imax_nonneg W .signed))

/-- From the magnitude 2^(W-1) on a signed destination holds the extreme, which is -2^(W-1) itself for a negative
value. -/
theorem clamp_signed_of_two_pow_le (h : 2 ^ (W - 1) ≤ mag) (s : Bool) :
    clamp (signedMag s mag) (imin W .signed) (imax W .signed) = extremeOf W .signed s := by
  have hle := imin_le_imax W .signed
  have hmag : (2 ^ (W - 1) : ℤ) ≤ mag := by exact_mod_cast h
  cases s with
  | false => exact clamp_of_hi_le hle ((sub_le_self _ zero_le_one).trans hmag)
  | true => exact clamp_of_le_lo hle (neg_le_neg hmag)

theorem clamp_unsigned_neg (W mag : Nat) :
    clamp (signedMag true mag) (imin W .unsigned) (imax W .unsigned) = 0 :=
  clamp_of_le_lo (imin_le_imax W .unsigned) (neg_nonpos.2 (Nat.cast_nonneg mag))

theorem clamp_unsigned_of_lt (h : mag < 2 ^ W) :
    clamp (signedMag false mag) (imin W .unsigned) (imax W .unsigned) = mag := by
  have hmag : (mag : ℤ) < 2 ^ W := by exact_mod_cast h
  exact clamp_of_mem (Nat.cast_nonneg mag) (Int.le_sub_one_of_lt hmag)

/-- R104: a magnitude of more than W bits clamps to the extreme of its sign, for either signedness. -/
theorem clamp_signedMag_of_two_pow_le (sg : Signedness) (s : Bool) (h : 2 ^ W ≤ mag) :
    clamp (signedMag s mag) (imin W sg) (imax W sg) = extremeOf W sg s := by
  cases sg with
  | signed => exact clamp_signed_of_two_pow_le ((Nat.pow_le_pow_right two_pos (Nat.sub_le W 1)).trans h) s
  | unsigned =>
    cases s with
    | false =>
      have hmag : (2 ^ W : ℤ) ≤ mag := by exact_mod_cast h
      exact clamp_of_hi_le (imin_le_imax W .unsigned) ((sub_le_self _ zero_le_one).trans hmag)
    | true => exact clamp_unsigned_neg W mag

end

/-- Settles O41: the integer is the clamped signed magnitude, whose leading 1 stands at bit u. -/
theorem clampBands : Obligations.ClampBands := by
  intro F W sg b hW p u mag r hbias hu
  obtain ⟨hsig1, hsig2⟩ := sigWithImplicit_bounds F p.frac
  obtain ⟨hmag1, hmag2⟩ := magnitude_bounds (u := u) hsig1 hsig2
  have hr : intValue sg r = clamp (signedMag p.sign mag) (imin W sg) (imax W sg) := by
    have hfit : p.exp.toNat < F.bias + W := (tsub_lt_iff_left hbias).1 hu
    exact (congrArg (intValue sg) (f2i_of_shifted hbias hfit)).trans (intValue_toBits_clamp hW.pos sg _)
  refine ⟨?_, ?_, ?_, ?_, ?_, ?_⟩
  · rintro rfl hs hu'
    rw [hr, clamp_signed_of_two_pow_le (hu' ▸ hmag1), hs]
    rfl
  · rintro rfl hs - hlt
    rw [hr, clamp_signed_of_two_pow_le hlt.le, hs]
    rfl
  · rintro rfl hs
    rw [hr, hs, clamp_unsigned_neg]
  · rintro rfl hu'
    rw [hr, clamp_signed_of_lt (hmag2.trans_le (Nat.pow_le_pow_right two_pos hu'))]
    rfl
  · rintro rfl hs heq
    rw [hr, clamp_signed_of_two_pow_le heq.ge, hs, heq]
    simp [extremeOf, imin]
  · rintro rfl hs
    rw [hr, hs, clamp_unsigned_of_lt (hmag2.trans_le (Nat.pow_le_pow_right two_pos hu))]

/-! ## Truncation toward zero (R108) -/

theorem truncate_intCast (z : ℤ) : truncate z = z := by
  rw [truncate, ← Int.cast_neg, Rat.floor_intCast, Rat.floor_intCast, neg_neg, ite_self]

theorem truncate_of_nonneg {q : ℚ} (h : 0 ≤ q) : truncate q = ⌊q⌋₊ := by
  rw [truncate, if_pos h, Int.natCast_floor_eq_floor h]
  rfl

theorem truncate_neg (q : ℚ) : truncate (-q) = -truncate q := by
  rcases lt_trichotomy q 0 with h | rfl | h
  · rw [truncate, truncate, if_pos (neg_nonneg.2 h.le), if_neg h.not_ge, neg_neg]
  · decide
  · rw [truncate, truncate, if_neg (neg_neg_of_pos h).not_ge, if_pos h.le, neg_neg]

/-- R48, R105: a pattern's value truncates to its sign and the floor of its magnitude. -/
theorem truncate_normalValue (F : FloatFormat) (b : BitVec F.total) :
    truncate (normalValue F b) = signedMag (unpack F b).sign ⌊|normalValue F b|⌋₊ := by
  rw [normalValue_eq_ite_sign]
  cases (unpack F b).sign with
  | false => simpa [signedMag] using truncate_of_nonneg (abs_nonneg (normalValue F b))
  | true => simpa [signedMag, truncate_neg] using truncate_of_nonneg (abs_nonneg (normalValue F b))

/-- R108, R117: on each of the three paths the integer is the truncated value, clamped; below BIAS it truncates to 0,
and from BIAS + W on it is beyond the extremes. -/
theorem intValue_f2i {W : Nat} (hW : 0 < W) (F : FloatFormat) (sg : Signedness) (b : BitVec F.total) :
    intValue sg (f2i F W sg b) = clamp (truncate (normalValue F b)) (imin W sg) (imax W sg) := by
  rw [truncate_normalValue]
  rcases Nat.lt_or_ge (unpack F b).exp.toNat F.bias with hlow | hbias
  · have hfloor : ⌊|normalValue F b|⌋₊ = 0 := Nat.floor_eq_zero.2 (abs_normalValue_lt_one_iff.2 hlow)
    have hzero : ∀ s, signedMag s 0 = 0 := by decide
    rw [f2i_of_below_bias hlow, intValue_toBits hW (imin_nonpos W sg) (imax_nonneg W sg), hfloor, hzero,
      clamp_of_mem (imin_nonpos W sg) (imax_nonneg W sg)]
  rcases Nat.lt_or_ge (unpack F b).exp.toNat (F.bias + W) with hfit | hsat
  · rw [f2i_of_shifted hbias hfit, intValue_toBits_clamp hW, magnitude_eq_floor_abs_normalValue hbias]
  · have hmag : 2 ^ W ≤ ⌊|normalValue F b|⌋₊ :=
      Nat.le_floor (by exact_mod_cast two_pow_le_abs_normalValue_iff.2 hsat)
    rw [f2i_of_saturated hsat, intValue_toBits_extremeOf hW, clamp_signedMag_of_two_pow_le sg _ hmag]

/-! ## The answers of the operations (R109 to R117) -/

/-- D15: infinities and NaNs give the extreme of their sign. -/
theorem intValue_f2i_of_exp_eq_emax {F : FloatFormat} {W : Nat} {b : BitVec F.total} (hW : InScopeWidth W)
    (sg : Signedness) (h : (unpack F b).exp.toNat = F.emax) :
    intValue sg (f2i F W sg b) = extremeOf W sg (unpack F b).sign := by
  rw [f2i_of_saturated (bias_add_le_of_exp_eq_emax hW.le_64 h), intValue_toBits_extremeOf hW.pos]

theorem f2i_truncatedSaturated {W : Nat} (hW : InScopeWidth W) (F : FloatFormat) (sg : Signedness)
    (b : BitVec F.total) : TruncatedSaturated F W sg b (f2i F W sg b) := by
  obtain ⟨-, hzero, -⟩ := magnitudeBelowOneGivesZero F W sg b
  unfold TruncatedSaturated
  rcases classify_cases F b with ⟨hexp, hclass | hclass⟩ | ⟨hexp, hclass | hclass⟩ | hclass <;> rw [hclass]
  · exact intValue_f2i_of_exp_eq_emax hW sg hexp
  · exact intValue_f2i_of_exp_eq_emax hW sg hexp
  · exact hzero hexp
  · exact hzero hexp
  · exact (intValue_f2i hW.pos F sg b).trans (clamp_eq_max_min (imin_le_imax W sg))

theorem answersTruncated_of_exec {i : Instr} {s : State} {F : FloatFormat} {W : Nat} {sg : Signedness}
    {b : BitVec F.total} (hW : InScopeWidth W) (h : exec i s = runF2I F W sg b i.diag s) :
    AnswersInt i s W (TruncatedSaturated F W sg b) :=
  answersInt_of_exec hW.le_64 h (f2i_truncatedSaturated hW F sg b)

/-- Settles O42: each arm is one conversion, which truncates and saturates. -/
theorem floatToIntAnswersTruncatedSaturated : Obligations.FloatToIntAnswersTruncatedSaturated := by
  intro s d v
  rw [← operand32_eq_setWidth, ← operand64_eq v]
  have h32 : InScopeWidth 32 := .inl rfl
  have h64 : InScopeWidth 64 := .inr rfl
  exact ⟨answersTruncated_of_exec h32 (exec_f2iF32U32 ..), answersTruncated_of_exec h32 (exec_f2iF64U32 ..),
    answersTruncated_of_exec h64 (exec_f2iF32U64 ..), answersTruncated_of_exec h64 (exec_f2iF64U64 ..),
    answersTruncated_of_exec h32 (exec_f2iF32S32 ..), answersTruncated_of_exec h32 (exec_f2iF64S32 ..),
    answersTruncated_of_exec h64 (exec_f2iF32S64 ..), answersTruncated_of_exec h64 (exec_f2iF64S64 ..)⟩

end Sys2Proof.Machine
end

section
/-! PROOFS. An integer converted to a float and back (spec/43_fp_to_int.md R117 (c)): the float stands for an integer,
which truncation leaves as it is. -/

namespace Sys2Proof.Machine

/-- R90 (c): in a unit below 1 the operand itself is kept, and a unit of at least 1 is an integer. -/
theorem exists_roundedMag_eq_natCast (r : RoundRule) (F : FloatFormat) (i : ℤ) : ∃ k : ℕ, roundedMag r F i = k := by
  rcases le_total (Nat.size i.natAbs) (F.sigBits + 1) with hn | hn
  · obtain ⟨-, hexact⟩ := abs_keptRounded_mul_unit_sub_lt r F (Nat.size i.natAbs) i.natAbs
    exact ⟨i.natAbs, hexact (by rw [Nat.sub_eq_zero_of_le hn, pow_zero]; exact one_dvd _)⟩
  · have hexp : (Nat.size i.natAbs : ℤ) - F.sigBits - 1 = ((Nat.size i.natAbs - (F.sigBits + 1) : ℕ) : ℤ) := by omega
    refine ⟨keptRounded r (aligned F (Nat.size i.natAbs) i.natAbs) * 2 ^ (Nat.size i.natAbs - (F.sigBits + 1)), ?_⟩
    rw [roundedMag, unitOf, hexp, zpow_natCast]
    push_cast
    rfl

theorem exists_roundedValue_eq_intCast (r : RoundRule) (F : FloatFormat) (i : ℤ) :
    ∃ z : ℤ, roundedValue r F i = z := by
  obtain ⟨k, hk⟩ := exists_roundedMag_eq_natCast r F i
  rw [roundedValue, hk]
  split
  · exact ⟨-k, by simp⟩
  · exact ⟨k, by simp⟩

/-- Settles O43: a nonzero integer's float has an integer value, which the way back truncates to itself and clamps. -/
theorem roundTripIsSaturated : Obligations.RoundTripIsSaturated := by
  intro r W W' sg sg' F x hW hW' b y
  constructor
  · rintro rfl
    obtain ⟨-, hzero, -⟩ := magnitudeBelowOneGivesZero F W' sg' b
    have hb : f2i F W' sg' b = 0 := hzero (by simp only [b, i2f_zero, unpack_zero])
    exact not_not.1 fun h => (intValue_ne_zero_iff sg' _).1 h hb
  · intro hx
    obtain ⟨z, hz⟩ := exists_roundedValue_eq_intCast r F (intValue sg x)
    have hclass : classify F b = .normal z := hz ▸ classify_i2f r F hW.le_64 sg x hx
    refine ⟨z, hclass, ?_, fun hexact => ?_⟩
    · rw [← clamp_eq_max_min (imin_le_imax W' sg'), ← truncate_intCast z, ← normalValue_of_classify hclass]
      exact intValue_f2i hW'.pos F sg' b
    · obtain ⟨-, hnormal⟩ := (i2f_roundedWithinUnit r hW.le_64 sg F x).classify_eq hexact
      exact Int.cast_injective (FloatClass.normal.inj (hclass.symm.trans (hnormal hx)))

end Sys2Proof.Machine
end

section
/-! PROOFS. What a request leaves on DBG, field by field, and that neither the flag `diag` nor another block's requests
reach what a block answers and holds (spec/60_exceptions.md R127, R128, R131). -/

namespace Sys2Proof.Machine

/-! ## The flag `diag` (R127) -/

/-- Settles O15: in either direction the word that drives RES is formed from `op` and `value` alone. -/
theorem diagNeverChangesResult : Obligations.DiagNeverChangesResult := by
  intro s op v
  cases hdir : opDir op with
  | intToFloat =>
    exact ⟨_, _, step_present_of_intToFloat s true v hdir, step_present_of_intToFloat s false v hdir,
      by rw [State.drive_res, State.drive_res]⟩
  | floatToInt =>
    exact ⟨_, _, step_present_of_floatToInt s true v hdir, step_present_of_floatToInt s false v hdir,
      by rw [State.drive_res, State.drive_res]⟩

/-! ## The fields of an integer to float request (R128) -/

section
variable {F : FloatFormat} {n : Nat}

theorem alignsLeft_iff : alignsLeft F n = true ↔ n < F.workW := decide_eq_true_iff

/-- R83: amount, sticky bit and register of an alignment to the left. -/
theorem alignment_of_left (h : alignsLeft F n = true) (m : Nat) :
    alignAmount F n = F.workW - n ∧ alignSticky F n m = false ∧ aligned F n m = m * 2 ^ alignAmount F n := by
  have hamount : alignAmount F n = F.workW - n := by rw [alignAmount, if_pos h]
  have hlt := alignsLeft_iff.1 h
  exact ⟨hamount, alignSticky_of_lt_workW hlt, by rw [hamount]; exact aligned_left hlt⟩

/-- R84: amount, sticky bit and register of an alignment to the right. -/
theorem alignment_of_right (h : alignsLeft F n = false) (m : Nat) :
    alignAmount F n = n - F.workW ∧ (alignSticky F n m = true ↔ ¬ 2 ^ alignAmount F n ∣ m) ∧
      aligned F n m = (m / 2 ^ alignAmount F n) ||| (alignSticky F n m).toNat := by
  have hamount : alignAmount F n = n - F.workW := by simp [alignAmount, h]
  have hle : F.workW ≤ n := by simpa [alignsLeft] using h
  refine ⟨hamount, ?_, by rw [hamount]; exact aligned_of_workW_le hle⟩
  rw [alignSticky_of_workW_le hle, hamount, stickyOut, decide_eq_true_iff, Nat.dvd_iff_mod_eq_zero]

end

/-- Settles O44: a zero operand claims `is_zero` alone; for another the fields are the engine's stages on its magnitude,
and RES is the packed result. -/
theorem debugFieldsOfIntToFloat : Obligations.DebugFieldsOfIntToFloat := by
  intro s op v hdir F M x
  have hW : opIntWidth op ≤ 64 := (opIntWidth_bounds op).2
  refine ⟨_, step_present_of_intToFloat s true v hdir, rfl, ?_⟩
  rw [State.drive_dbg, dbgPort_fields_of_diag, State.drive_res]
  by_cases hx : v.setWidth (opIntWidth op) = 0
  · have hx0 : x = 0 := not_not.1 fun h => (intValue_ne_zero_iff _ _).1 h hx
    rw [hx, i2fTrace_zero]
    exact ⟨iff_of_true rfl hx0, fun h => absurd hx0 h⟩
  have hx0 : x ≠ 0 := (intValue_ne_zero_iff _ _).2 hx
  have h0 := signMag_ne_zero (opSgn op) hx
  have hlt := signMag_lt (opSgn op) (v.setWidth (opIntWidth op))
  obtain ⟨hn, hlow, hhigh⟩ := size_bounds h0
  rw [i2fTrace_of_ne_zero _ _ _ hx, i2f_of_ne_zero _ _ _ hx, engineTrace_eq _ _ _ hW h0 hlt,
    resultWord_toNat (by cases opFormat op <;> decide), normRound_toNat _ _ _ hW h0 hlt, keptRounded_eq]
  exact ⟨iff_of_false nofun hx0, fun _ => ⟨signMag_sign_iff _ hx, (natAbs_intValue ..).symm, hn, hlow, hhigh, rfl,
    alignsLeft_iff, fun h => alignment_of_left h _, fun h => alignment_of_right h _, rfl, decide_eq_true_iff,
    exponentAfter_eq .., rfl, rfl⟩⟩

/-! ## The fields of a float to integer request (R128) -/

section
variable {F : FloatFormat} {u : Nat}

theorem shiftsLeft_iff : shiftsLeft F u = true ↔ F.sigBits ≤ u := decide_eq_true_iff

/-- R105: amount and magnitude of a shift to the left. -/
theorem shift_of_left (h : shiftsLeft F u = true) (sig : Nat) :
    shiftAmount F u = u - F.sigBits ∧ magnitude F u sig = sig * 2 ^ shiftAmount F u := by
  have hamount : shiftAmount F u = u - F.sigBits := by rw [shiftAmount, if_pos h]
  exact ⟨hamount, hamount ▸ magnitude_of_ge sig (shiftsLeft_iff.1 h)⟩

/-- R105: amount and magnitude of a shift to the right. -/
theorem shift_of_right (h : shiftsLeft F u = false) (sig : Nat) :
    shiftAmount F u = F.sigBits - u ∧ magnitude F u sig = sig / 2 ^ shiftAmount F u := by
  have hamount : shiftAmount F u = F.sigBits - u := by simp [shiftAmount, h]
  have hlt : u < F.sigBits := by simpa [shiftsLeft] using h
  exact ⟨hamount, hamount ▸ magnitude_of_lt sig hlt⟩

end

/-- R106: the clamp changes exactly what lies outside the destination's range. -/
theorem clampChanges_iff {W : Nat} {sg : Signedness} {z : ℤ} :
    clampChanges W sg z = true ↔ z < imin W sg ∨ imax W sg < z := by
  rw [clampChanges, decide_eq_true_iff, clamp]
  split_ifs <;> omega

/-- Settles O45: path by path of the conversion, each claiming the fields of the tests it passed. -/
theorem debugFieldsOfFloatToInt : Obligations.DebugFieldsOfFloatToInt := by
  intro s op v hdir F M W b
  refine ⟨_, step_present_of_floatToInt s true v hdir, rfl, ?_⟩
  rw [State.drive_dbg, dbgPort_fields_of_diag, State.drive_res]
  rcases Nat.lt_or_ge (unpack F b).exp.toNat F.bias with hlow | hbias
  · rw [f2iTrace_of_below_bias hlow, f2i_of_below_bias hlow, toBits_zero]
    exact ⟨rfl, rfl, rfl, iff_of_true rfl hlow, fun _ => BitVec.setWidth_zero .., nofun⟩
  have hu : (unpack F b).exp.toNat - F.bias + F.bias = (unpack F b).exp.toNat := Nat.sub_add_cancel hbias
  rcases Nat.lt_or_ge (unpack F b).exp.toNat (F.bias + W) with hfit | hsat
  · have huW : ¬ W ≤ (unpack F b).exp.toNat - F.bias := by omega
    rw [f2iTrace_of_shifted hbias hfit]
    exact ⟨rfl, rfl, rfl, iff_of_false nofun hbias.not_gt, nofun, fun _ => ⟨hu, iff_of_false nofun huW, fun _ =>
      ⟨shiftsLeft_iff, fun h => shift_of_left h _, fun h => shift_of_right h _, clampChanges_iff⟩⟩⟩
  · have hWu : W ≤ (unpack F b).exp.toNat - F.bias := by omega
    rw [f2iTrace_of_saturated hsat]
    exact ⟨rfl, rfl, rfl, iff_of_false nofun hbias.not_gt, nofun, fun _ => ⟨hu, iff_of_true rfl hWu, nofun⟩⟩

/-! ## Blocks share nothing (R131, R146) -/

/-- Serving a first request is asking the block of its number, then serving the rest with that block put back. -/
theorem System.serve_cons_cases {sys sys' : System} {k : Nat} {r : Request} {rest : List (Nat × Request)}
    {vs : List Word} (h : sys.serve ((k, r) :: rest) = some (vs, sys')) :
    ∃ s t v vs', sys.blocks[k]? = some s ∧ ask r s = some (v, t) ∧ vs = v :: vs' ∧
      System.serve { blocks := sys.blocks.set k t } rest = some (vs', sys') := by
  cases hs : sys.blocks[k]? with
  | none => simp [System.serve, hs] at h
  | some s =>
    obtain ⟨t, hask, -⟩ := ask_eq_convert r s
    rw [System.serve_cons hs hask] at h
    obtain ⟨⟨vs', sys''⟩, hrest, heq⟩ := Option.map_eq_some_iff.1 h
    cases heq
    exact ⟨s, t, _, vs', rfl, hask, rfl, hrest⟩

/-- Settles O48: each request served puts back one block alone, that of its number. -/
theorem unaddressedBlocksUnchanged : Obligations.UnaddressedBlocksUnchanged := by
  intro sys sys' sched vs hserve k hk
  induction sched generalizing sys vs with
  | nil =>
    cases hserve
    rfl
  | cons p rest ih =>
    obtain ⟨hp, hrest⟩ := List.forall_mem_cons.1 hk
    obtain ⟨-, t, -, vs', -, -, -, hserve'⟩ := System.serve_cons_cases hserve
    calc sys'.blocks[k]? = (sys.blocks.set p.1 t)[k]? := ih _ vs' hserve' hrest
      _ = sys.blocks[k]? := List.getElem?_set_ne hp

end Sys2Proof.Machine
end

section
/-! PROOFS. The ports right after reset, the first request there, and which instance serves a request
(spec/70_reset_and_hazards.md R140, R142, R146). -/

namespace Sys2Proof.Machine

/-! ## After reset (R140, R142) -/

/-- R61, R64: request 0 asks for the unsigned 32-bit operand 0, which converts to the pattern 0 under either rule. -/
theorem convert_zero (r : RoundRule) : convert r 0 = 0 := by
  rw [convert_of_intToFloat (by decide)]
  exact congrArg resultWord (i2f_zero r _ _ _)

/-- Settles O10: RES at reset is CONVERT of the word on REQ there, whose flag is 0, so DBG claims no conversion. -/
theorem resetPortsAreSettled : Obligations.ResetPortsAreSettled := by
  refine ⟨?_, ?_, ?_⟩
  · exact (convert_zero State.reset.config.roundRule).symm
  · rfl
  · nofun

/-- Settles O11: O9 for the reset state with the request on REQ, whose ROUND_RULE is the default. -/
theorem firstRequestAfterReset : Obligations.FirstRequestAfterReset := by
  intro r
  obtain ⟨t, hstep, -, hres, -, hvalid⟩ := stepComputesConvert (State.reset.present r)
  exact ⟨t, hstep, hres, hvalid⟩

/-! ## Which instance serves a request (R146) -/

/-- Well-formedness is a property of the build parameters alone. -/
theorem System.wf_iff_configs (sys : System) :
    sys.wf = true ↔ 1 ≤ sys.configs.length ∧ ∀ a ∈ sys.configs, ∀ b ∈ sys.configs, a = b := by
  simp [System.wf_iff, System.numBlocks_eq_length_configs, System.configs]

theorem System.wf_congr {sys sys' : System} (h : sys'.configs = sys.configs) (hwf : sys.wf = true) :
    sys'.wf = true := by
  rw [System.wf_iff_configs] at hwf ⊢
  rwa [h]

/-- All blocks of a well-formed system are built with one and the same parameters (log 17). -/
theorem System.exists_config_of_wf {sys : System} (hwf : sys.wf = true) :
    ∃ c : Config, ∀ k < sys.numBlocks, sys.configs[k]? = some c := by
  obtain ⟨hpos, hall⟩ := sys.wf_iff_configs.1 hwf
  refine ⟨sys.configs[0], fun k hk => ?_⟩
  rw [System.numBlocks_eq_length_configs] at hk
  rw [List.getElem?_eq_getElem hk]
  exact congrArg some (hall _ (List.getElem_mem hk) _ (List.getElem_mem hpos))

/-- The results of a schedule whose blocks are all built with `c` are CONVERT of its requests under the rule of `c`:
the block numbers drop out. -/
theorem System.serve_eq_map_convert {sys : System} {c : Config} {sched : List (Nat × Request)}
    (hc : ∀ k < sys.numBlocks, sys.configs[k]? = some c) (h : ∀ p ∈ sched, p.1 < sys.numBlocks) :
    ∃ sys', sys.serve sched = some ((sched.map Prod.snd).map (convert c.roundRule), sys') ∧
      sys'.configs = sys.configs := by
  obtain ⟨vs, sys', hserve, hconfigs, hvs⟩ := System.serve_eq_answers h
  have hanswer : ∀ p ∈ sched, answerOf sys.configs p = some (convert c.roundRule p.2) := fun p hp => by
    rw [answerOf, hc p.1 (h p hp), Option.map_some]
  have hvs' : vs = (sched.map Prod.snd).map (convert c.roundRule) := by
    apply List.map_injective_iff.2 (Option.some_injective Word)
    calc vs.map some = sched.map (answerOf sys.configs) := hvs
      _ = sched.map fun p => some (convert c.roundRule p.2) := List.map_congr_left hanswer
      _ = ((sched.map Prod.snd).map (convert c.roundRule)).map some := by simp
  exact ⟨sys', hvs' ▸ hserve, hconfigs⟩

/-- Settles O49: under the one ROUND_RULE of the system both schedules give CONVERT of the same list of requests, and
serving keeps the build parameters. -/
theorem servingInstanceDoesNotMatter : Obligations.ServingInstanceDoesNotMatter := by
  intro sys sched sched' hwf h h' hreqs
  obtain ⟨c, hc⟩ := System.exists_config_of_wf hwf
  obtain ⟨sys₁, hserve, hconfigs⟩ := System.serve_eq_map_convert hc h
  obtain ⟨sys₂, hserve', hconfigs'⟩ := System.serve_eq_map_convert hc h'
  rw [← hreqs] at hserve'
  exact ⟨_, sys₁, sys₂, hserve, hserve', System.wf_congr hconfigs hwf, System.wf_congr hconfigs' hwf⟩

end Sys2Proof.Machine
end
